-- ==== Sys2Proof/Word.lean ====
section
/-! DEFINITION. The widths of the values of the CORE (00_scope.md R8). No value is signed (R9). -/

namespace Sys2Proof

/-- u8: every wire byte, node number, length, payload byte, checksum, command byte and response byte (R8). -/
abbrev Byte := BitVec 8

/-- u16: the carrier of a memory-card sector address (R8). -/
abbrev U16 := BitVec 16

/-- u32: a timeout or a pre-delay, in microseconds (R8). -/
abbrev U32 := BitVec 32

end Sys2Proof
end

