-- ==== Sys2Proof/Config.lean ====
section
/-! DEFINITION. The values the source fixes (00_scope.md R6), the parameters it leaves open (R7), and the model's
free values. A parameter is a constant with no body: nothing in Lean can tell its value, so a claim holds for every
value the spec admits. The operations take the parameters as arguments; only the meanings of Dispatch.lean and the
inputs of Inputs.lean supply the constants of this file. -/

namespace Sys2Proof

/-- How the decoder treats non-SYNC bytes in WaitSync when no SYNC opened the frame (R7, R32). -/
inductive HuntMode where
  | literal
  | strict
  deriving DecidableEq, Repr, Inhabited

/-- A direction of an edge of the ACK input (R7, R46). -/
inductive Edge where
  | falling
  | rising
  deriving DecidableEq, Repr, Inhabited

/-- The caller's timing of one transfer, both in microseconds (R7, R8). -/
structure Timing where
  timeout : U32
  predelay : U32
  deriving DecidableEq, Repr

/-- The open parameters that a bus operation reads (R7): the duration of one exchange and the timing tables, each a
function of the index k of the transfer. `line` is the model's own: the timing of a byte code of opcode_table.json
that is sent in a session outside an operation (DESIGN CHOICE: log 9). -/
structure BusParams where
  tXchg : Nat
  rd : Nat → Timing
  wr : Nat → Timing
  pad : Nat → Timing
  line : Byte → Timing

namespace Config

/-! ## The values of R6 -/

/-- Frame start byte. -/
abbrev sync : Byte := 0xE0
/-- Escape marker byte. -/
abbrev escape : Byte := 0xD0
/-- Broadcast node number. -/
abbrev broadcast : Byte := 0xFF
/-- Highest unicast node number. -/
abbrev nodeMax : Byte := 31
/-- Highest payload length. -/
abbrev payloadMax : Nat := 254
/-- ACK-tracking wait bound, microseconds. -/
abbrev tAckUs : Nat := 3000
/-- Highest memory-card sector address. -/
abbrev sectorMax : U16 := 1023
/-- Device-select byte, controller. -/
abbrev devPad : Byte := 0x01
/-- Device-select byte, memory card. -/
abbrev devMc : Byte := 0x81
/-- Memory-card read command 'R'. -/
abbrev cmdRead : Byte := 0x52
/-- Memory-card write command 'W'. -/
abbrev cmdWrite : Byte := 0x57
/-- Controller poll command 'B'. -/
abbrev cmdPoll : Byte := 0x42
/-- The byte sent by a transfer that reads (30_encoding.md R85). -/
abbrev filler : Byte := 0x00
/-- Memory-card success status 'G'. -/
abbrev stGood : Byte := 0x47
/-- Failure marker, absent or bad sector. -/
abbrev rspFail : Byte := 0xFF
/-- Failure marker, bad checksum 'N'. -/
abbrev rspBadChk : Byte := 0x4E
/-- First ID byte that makes a presence probe succeed. -/
abbrev mcId0 : Byte := 0x5A
/-- Required first acknowledge byte of a read. -/
abbrev mcAck1 : Byte := 0x5C
/-- First byte of the digital-pad signature. -/
abbrev padId0 : Byte := 0x41
/-- Second byte of the digital-pad signature. -/
abbrev padId1 : Byte := 0x5A

/-! ## The open parameters of R7 (DEDUCED, safe: log 15) -/

/-- HUNT_MODE. The spec names LITERAL the default and leaves the choice to the decoder's construction (D9). -/
opaque huntMode : HuntMode

/-- LOCAL_NODE as a number in 0..31 (D7). -/
opaque localNodeNumber : Fin 32

/-- LOCAL_NODE, the decoder's local node number at construction. -/
def localNode : Byte := BitVec.ofNat 8 localNodeNumber.val

/-- ACK_EDGE, the edge of the ACK input that the latch responds to (D27). -/
opaque ackEdge : Edge

/-- T_XCHG_US, the time one byte exchange takes (D27). -/
opaque tXchgUs : Nat

/-- One less than BUS_CLOCK_HZ, which is a positive natural (D27). -/
opaque busClockHzLessOne : Nat

/-- BUS_CLOCK_HZ (D27). No rule at transaction level reads it: the time of an exchange is T_XCHG_US
(DEDUCED, safe: log 7). -/
def busClockHz : Nat := busClockHzLessOne + 1

/-- BUS_CPHA: false is 0, true is 1 (D27). No rule at transaction level reads it (DEDUCED, safe: log 7). -/
opaque busCpha : Bool

/-- MC_RD_TIMING, MC_WR_TIMING and PAD_TIMING, each as a timeout and a pre-delay of the k-th transfer (D29). -/
opaque mcRdTimeout : Nat → U32
opaque mcRdPredelay : Nat → U32
opaque mcWrTimeout : Nat → U32
opaque mcWrPredelay : Nat → U32
opaque padTimeout : Nat → U32
opaque padPredelay : Nat → U32

/-! ## The model's free values -/

/-- FREE VALUE (DESIGN CHOICE, safe: log 5): the response of the n-th exchange of the run, where the state lists none.
Any of the 256 values may come back at any transfer (30_encoding.md R86, 60_exceptions.md R251). -/
opaque freeAnswer : Nat → Byte

/-- FREE VALUES (DESIGN CHOICE, safe: log 9): the timing of a byte code sent in a session outside an operation, which
the spec does not state. -/
opaque lineTimeout : Byte → U32
opaque linePredelay : Byte → U32

/-- The parameters of this bus, put together. -/
def busParams : BusParams where
  tXchg := tXchgUs
  rd k := ⟨mcRdTimeout k, mcRdPredelay k⟩
  wr k := ⟨mcWrTimeout k, mcWrPredelay k⟩
  pad k := ⟨padTimeout k, padPredelay k⟩
  line c := ⟨lineTimeout c, linePredelay c⟩

end Config

end Sys2Proof
end

