-- ==== Sys2Proof/Syntax.lean ====
section
/-! DEFINITION. The instructions: one constructor for each row of spec/opcode_table.json. The table has three formats:
CMD8 (a command presented to a block, 30_encoding.md R88 and R90), WIRE8 (a raw byte that the decoder consumes, by its
class, R78) and PSX8 (a byte on the peripheral bus, sent or received, R81 to R85 and R205). -/

namespace Sys2Proof

inductive Instr where
  -- CMD8, packet_encoder
  | encSend (nodeNo : Byte) (payload : List Byte)
  -- CMD8, packet_decoder
  | decFeed (b : Byte)
  | decPoll
  | decSetNode (node : Byte)
  -- CMD8, psx_bus_controller. The buffers Out, In and Pad are the caller's and stand in the state (10_state.md R42).
  -- A command names none of them (DESIGN CHOICE: log 22).
  | busBegin (slot : Byte)
  | busXfer (cmd : Byte) (timeout predelay : U32)
  | busEnd
  | mcRead (slot : Byte) (sector : U16)
  | mcProbe (slot : Byte) (sector : U16)
  | mcWrite (slot : Byte) (sector : U16)
  | padPoll (slot : Byte)
  -- WIRE8, in the order of R78
  | sync
  | escape
  | escapedData (v : Byte)
  | data (v : Byte)
  -- PSX8, sent by the bus controller
  | selPad
  | selMc
  | cmdReadR
  | cmdWriteW
  | cmdPollB
  | filler
  -- PSX8, received from the peripheral
  | rspFail
  | mcId0
  | mcAck1
  | stGood
  | rspBadchk
  | padId0
  | padId1
  deriving DecidableEq, Repr

/-- Where the bytes of an instruction are presented. A command code is presented to one block (R87, R91); a wire byte
comes to the decoder; a byte code of the peripheral bus is sent, or comes from a memory card or a controller. The
same byte value means different rows at different ports (DESIGN CHOICE, safe: log 2). -/
inductive Port where
  | enc
  | dec
  | bus
  | wire
  | lineOut
  | mcIn
  | padIn
  deriving DecidableEq, Repr

/-- The port of each instruction: the table's block, class, or direction and device. -/
def Instr.port : Instr → Port
  | .encSend _ _ => .enc
  | .decFeed _ | .decPoll | .decSetNode _ => .dec
  | .busBegin _ | .busXfer _ _ _ | .busEnd => .bus
  | .mcRead _ _ | .mcProbe _ _ | .mcWrite _ _ | .padPoll _ => .bus
  | .sync | .escape | .escapedData _ | .data _ => .wire
  | .selPad | .selMc | .cmdReadR | .cmdWriteW | .cmdPollB | .filler => .lineOut
  | .rspFail | .mcId0 | .mcAck1 | .stGood | .rspBadchk => .mcIn
  | .padId0 | .padId1 => .padIn

end Sys2Proof
end

