-- ==== Sys2Proof/WellFormed.lean ====
section
/-! DEFINITION. The instructions that have an encoding. An argument outside the domain the source gives it (a slot of
2, a sector of 1024, a payload of 255 bytes) is well formed: the command's meaning refuses it (60_exceptions.md R234). -/

namespace Sys2Proof

/-- The checks: a payload's length fits its two-byte length field (DESIGN CHOICE: log 1), and a byte of a class fits the class's row
(30_encoding.md R78: escaped data is never 0xE0, data is neither 0xE0 nor 0xD0). -/
def Instr.wf : Instr → Bool
  | .encSend _ payload => decide (payload.length < 65536)
  | .escapedData v => v != Config.sync
  | .data v => v != Config.sync && v != Config.escape
  | .decFeed _ | .decPoll | .decSetNode _ => true
  | .busBegin _ | .busXfer _ _ _ | .busEnd => true
  | .mcRead _ _ | .mcProbe _ _ | .mcWrite _ _ | .padPoll _ => true
  | .sync | .escape => true
  | .selPad | .selMc | .cmdReadR | .cmdWriteW | .cmdPollB | .filler => true
  | .rspFail | .mcId0 | .mcAck1 | .stGood | .rspBadchk | .padId0 | .padId1 => true

end Sys2Proof
end

