-- ==== Sys2Proof/Decode.lean ====
section
/-! DEFINITION. The decoder, total on any bytes, and the encoder. The first byte of an instruction is its row's byte
(30_encoding.md R78, R81 to R85, R90). The operand bytes of a command are the model's own layout, since the spec's
arguments are typed values (R87; DESIGN CHOICE, unsafe for claims about these bytes: log 1): the arguments in the order
of R88, a wider one high byte first, a payload behind a two-byte length. -/

namespace Sys2Proof

/-- Why bytes are no instruction. -/
inductive DecodeError where
  /-- No byte at all. -/
  | empty
  /-- A command code that R90 does not list for this block (R91). -/
  | undefinedCmd (code : Byte)
  /-- A listed command whose operand bytes are not all there (DESIGN CHOICE: log 1). -/
  | truncated (code : Byte)
  /-- A byte of the peripheral bus that no row of the opcode table names at this port (DESIGN CHOICE, safe: log 2). -/
  | noRow (b : Byte)
  deriving DecidableEq, Repr

/-- The decoder's answer: an instruction and the bytes behind it, or the reason there is none. -/
inductive Decoded where
  | ok (i : Instr) (rest : List Byte)
  | bad (e : DecodeError)
  deriving DecidableEq, Repr

/-! ## Byte order of the operands -/

/-- A 16-bit value from its high and its low byte. -/
def joinU16 (hi lo : Byte) : U16 := BitVec.ofNat 16 (hi.toNat * 256 + lo.toNat)

/-- The two bytes of a 16-bit value, high byte first. -/
def splitU16 (v : U16) : List Byte := [BitVec.ofNat 8 (v.toNat / 256), BitVec.ofNat 8 v.toNat]

/-- A 32-bit value from its four bytes, high byte first. -/
def joinU32 (b3 b2 b1 b0 : Byte) : U32 :=
  BitVec.ofNat 32 (((b3.toNat * 256 + b2.toNat) * 256 + b1.toNat) * 256 + b0.toNat)

/-- The four bytes of a 32-bit value, high byte first. -/
def splitU32 (v : U32) : List Byte :=
  [BitVec.ofNat 8 (v.toNat / 16777216), BitVec.ofNat 8 (v.toNat / 65536), BitVec.ofNat 8 (v.toNat / 256),
    BitVec.ofNat 8 v.toNat]

/-! ## Decoder -/

/-- Commands of packet_encoder (R90). -/
def decodeEnc (c : Byte) (bs : List Byte) : Decoded :=
  if c = 0x10 then
    match bs with
    | n :: hi :: lo :: rest =>
      if (joinU16 hi lo).toNat ≤ rest.length then
        .ok (.encSend n (rest.take (joinU16 hi lo).toNat)) (rest.drop (joinU16 hi lo).toNat)
      else .bad (.truncated c)
    | _ => .bad (.truncated c)
  else .bad (.undefinedCmd c)

/-- Commands of packet_decoder (R90). Code 0x22 is unassigned. -/
def decodeDec (c : Byte) (bs : List Byte) : Decoded :=
  if c = 0x20 then
    match bs with
    | b :: rest => .ok (.decFeed b) rest
    | [] => .bad (.truncated c)
  else if c = 0x21 then .ok .decPoll bs
  else if c = 0x23 then
    match bs with
    | n :: rest => .ok (.decSetNode n) rest
    | [] => .bad (.truncated c)
  else .bad (.undefinedCmd c)

/-- A slot and a sector: the operands of the memory-card commands. -/
def decodeSlotSector (mk : Byte → U16 → Instr) (c : Byte) : List Byte → Decoded
  | slot :: hi :: lo :: rest => .ok (mk slot (joinU16 hi lo)) rest
  | _ => .bad (.truncated c)

/-- Commands of psx_bus_controller (R90). -/
def decodeBus (c : Byte) (bs : List Byte) : Decoded :=
  if c = 0x30 then
    match bs with
    | slot :: rest => .ok (.busBegin slot) rest
    | [] => .bad (.truncated c)
  else if c = 0x31 then
    match bs with
    | cmd :: t3 :: t2 :: t1 :: t0 :: d3 :: d2 :: d1 :: d0 :: rest =>
      .ok (.busXfer cmd (joinU32 t3 t2 t1 t0) (joinU32 d3 d2 d1 d0)) rest
    | _ => .bad (.truncated c)
  else if c = 0x32 then .ok .busEnd bs
  else if c = 0x40 then decodeSlotSector .mcRead c bs
  else if c = 0x41 then decodeSlotSector .mcProbe c bs
  else if c = 0x42 then decodeSlotSector .mcWrite c bs
  else if c = 0x43 then
    match bs with
    | slot :: rest => .ok (.padPoll slot) rest
    | [] => .bad (.truncated c)
  else .bad (.undefinedCmd c)

/-- The class of a raw wire byte, given the decoder's pending-escape flag; the first row that matches decides
(30_encoding.md R78). -/
def classifyWire (esc : Bool) (b : Byte) : Instr :=
  if b = Config.sync then .sync
  else if esc then .escapedData b
  else if b = Config.escape then .escape
  else .data b

/-- The byte codes the bus controller sends (R81, R82, R85). -/
def decodeLineOut (b : Byte) (bs : List Byte) : Decoded :=
  if b = Config.devPad then .ok .selPad bs
  else if b = Config.devMc then .ok .selMc bs
  else if b = Config.cmdRead then .ok .cmdReadR bs
  else if b = Config.cmdWrite then .ok .cmdWriteW bs
  else if b = Config.cmdPoll then .ok .cmdPollB bs
  else if b = Config.filler then .ok .filler bs
  else .bad (.noRow b)

/-- The response values of a memory card that the table names (R83). -/
def decodeMcIn (b : Byte) (bs : List Byte) : Decoded :=
  if b = Config.rspFail then .ok .rspFail bs
  else if b = Config.mcId0 then .ok .mcId0 bs
  else if b = Config.mcAck1 then .ok .mcAck1 bs
  else if b = Config.stGood then .ok .stGood bs
  else if b = Config.rspBadChk then .ok .rspBadchk bs
  else .bad (.noRow b)

/-- The response values of a controller that the table names (R205). -/
def decodePadIn (b : Byte) (bs : List Byte) : Decoded :=
  if b = Config.padId0 then .ok .padId0 bs
  else if b = Config.padId1 then .ok .padId1 bs
  else .bad (.noRow b)

/-- The instruction that bytes presented at a port begin with. Only the wire port reads `esc`, the decoder's
pending-escape flag. -/
def decode (p : Port) (esc : Bool) : List Byte → Decoded
  | [] => .bad .empty
  | b :: bs =>
    match p with
    | .enc => decodeEnc b bs
    | .dec => decodeDec b bs
    | .bus => decodeBus b bs
    | .wire => .ok (classifyWire esc b) bs
    | .lineOut => decodeLineOut b bs
    | .mcIn => decodeMcIn b bs
    | .padIn => decodePadIn b bs

/-! ## Encoder -/

/-- The first byte: the command code of R90, or the byte itself. -/
def Instr.opcode : Instr → Byte
  | .encSend _ _ => 0x10
  | .decFeed _ => 0x20
  | .decPoll => 0x21
  | .decSetNode _ => 0x23
  | .busBegin _ => 0x30
  | .busXfer _ _ _ => 0x31
  | .busEnd => 0x32
  | .mcRead _ _ => 0x40
  | .mcProbe _ _ => 0x41
  | .mcWrite _ _ => 0x42
  | .padPoll _ => 0x43
  | .sync => 0xE0
  | .escape => 0xD0
  | .escapedData v => v
  | .data v => v
  | .selPad => 0x01
  | .selMc => 0x81
  | .cmdReadR => 0x52
  | .cmdWriteW => 0x57
  | .cmdPollB => 0x42
  | .filler => 0x00
  | .rspFail => 0xFF
  | .mcId0 => 0x5A
  | .mcAck1 => 0x5C
  | .stGood => 0x47
  | .rspBadchk => 0x4E
  | .padId0 => 0x41
  | .padId1 => 0x5A

/-- The bytes behind the first, in the order of R88. -/
def Instr.operands : Instr → List Byte
  | .encSend n payload => n :: (splitU16 (BitVec.ofNat 16 payload.length) ++ payload)
  | .decFeed b => [b]
  | .decSetNode node => [node]
  | .busBegin slot => [slot]
  | .busXfer cmd timeout predelay => cmd :: (splitU32 timeout ++ splitU32 predelay)
  | .mcRead slot sector => slot :: splitU16 sector
  | .mcProbe slot sector => slot :: splitU16 sector
  | .mcWrite slot sector => slot :: splitU16 sector
  | .padPoll slot => [slot]
  | .decPoll | .busEnd => []
  | .sync | .escape | .escapedData _ | .data _ => []
  | .selPad | .selMc | .cmdReadR | .cmdWriteW | .cmdPollB | .filler => []
  | .rspFail | .mcId0 | .mcAck1 | .stGood | .rspBadchk | .padId0 | .padId1 => []

/-- The bytes of an instruction. -/
def encode (i : Instr) : List Byte := i.opcode :: i.operands

/-- The pending-escape flag under which a byte has this instruction's class (R78). Only escaped data needs it set. -/
def Instr.escContext : Instr → Bool
  | .escapedData _ => true
  | .encSend _ _ | .decFeed _ | .decPoll | .decSetNode _ => false
  | .busBegin _ | .busXfer _ _ _ | .busEnd => false
  | .mcRead _ _ | .mcProbe _ _ | .mcWrite _ _ | .padPoll _ => false
  | .sync | .escape | .data _ => false
  | .selPad | .selMc | .cmdReadR | .cmdWriteW | .cmdPollB | .filler => false
  | .rspFail | .mcId0 | .mcAck1 | .stGood | .rspBadchk | .padId0 | .padId1 => false

/-! ## A word of the opcode table -/

/-- The port at which a word of the opcode table is read when nothing but the word is given. Where rows of two formats
share a byte (0x41, 0x42 and 0x5A; any byte and the rows whose mask is 0), the command comes first, then the marker
bytes, then the bytes of the bus, then data (DESIGN CHOICE: log 2). -/
def tablePort (b : Byte) : Port :=
  if b = 0x10 then .enc
  else if b = 0x20 ∨ b = 0x21 ∨ b = 0x23 then .dec
  else if b = 0x30 ∨ b = 0x31 ∨ b = 0x32 ∨ b = 0x40 ∨ b = 0x41 ∨ b = 0x42 ∨ b = 0x43 then .bus
  else if b = Config.sync ∨ b = Config.escape then .wire
  else if b = Config.devPad ∨ b = Config.devMc ∨ b = Config.cmdRead ∨ b = Config.cmdWrite ∨ b = Config.filler then
    .lineOut
  else if b = Config.rspFail ∨ b = Config.mcId0 ∨ b = Config.mcAck1 ∨ b = Config.stGood ∨ b = Config.rspBadChk then
    .mcIn
  else .wire

/-- The bytes of a table word, the first byte from its low bits, and zero operand bytes behind them: nine, as many as
the longest command whose operands are all zero has (BUS_XFER). -/
def tableBytes (nbits w : Nat) : List Byte :=
  (List.range ((nbits + 7) / 8)).map (fun k => BitVec.ofNat 8 (w / 256 ^ k)) ++ List.replicate 9 0

/-- The port of a table word: that of its first byte. -/
def wordPort (nbits w : Nat) : Port :=
  tablePort ((tableBytes nbits w).headD 0)

/-- The instruction a table word is, if it is one, read with no escape pending. -/
def decodeTableWord (nbits w : Nat) : Option Instr :=
  match decode (wordPort nbits w) false (tableBytes nbits w) with
  | .ok i _ => some i
  | .bad _ => none

/-- The bytes of the table word that its instruction takes. -/
def tableWordBytes (nbits w : Nat) : List Byte :=
  match decode (wordPort nbits w) false (tableBytes nbits w) with
  | .ok _ rest => (tableBytes nbits w).take ((tableBytes nbits w).length - rest.length)
  | .bad _ => tableBytes nbits w

end Sys2Proof
end

