-- ==== Sys2Proof/Machine/State.lean ====
section
/-! DEFINITION. The state of the CORE as plain data: one decoder, one bus controller (the encoder keeps no state, R24;
one of each is a DESIGN CHOICE, safe: log 14), the external lines they are attached to, the caller's buffers, and what
the host sees and presents. -/

namespace Sys2Proof.Machine

/-! ## packet_decoder (10_state.md R22 to R31) -/

/-- The Packet value (R22). -/
structure Packet where
  nodeNo : Byte
  payload : List Byte
  checksum : Byte
  deriving DecidableEq, Repr

/-- The parser's position in the frame (R26). -/
inductive Phase where
  | waitSync
  | gotAddress
  | receivingData
  | receivedAll
  deriving DecidableEq, Repr

/-- The record D of R25. `armed` is read under HUNT_MODE = STRICT only (R30). -/
structure Dec where
  phase : Phase
  esc : Bool
  count : Byte
  node : Byte
  len : Byte
  payload : List Byte
  armed : Bool
  localNode : Byte
  deriving DecidableEq, Repr

/-! ## psx_bus_controller (10_state.md R33 to R39) -/

/-- The peripheral operations (43_peripheral_operations.md). -/
inductive OpKind where
  | mcRead
  | mcProbe
  | mcWrite
  | padPoll
  deriving DecidableEq, Repr

/-- A peripheral operation between two of its transfers: its sequencing position `k`, the index of the transfer that
comes next (R39, R191), and the values its pseudocode carries from transfer to transfer (R193, R199, R201, R204;
DESIGN CHOICE, safe: log 18). -/
structure OpRun where
  kind : OpKind
  sector : U16
  k : Nat
  id0 : Byte
  chk : Byte
  rx : Byte
  deriving DecidableEq, Repr

/-- The record B of R33. A select level is true when the line is high, idle (R37). `op` is the operation in progress,
none while no operation runs (R39, R58). -/
structure Bus where
  ack : Bool
  compat : Bool
  session : Option (Fin 2)
  sel : Vector Bool 2
  now : Nat
  op : Option OpRun
  deriving DecidableEq, Repr

/-! ## External lines -/

/-- What the encoder does to its channel (R44). -/
inductive TxItem where
  | byte (b : Byte)
  | flush
  deriving DecidableEq, Repr

/-- The transport channel: the bytes received and not yet read, oldest first, and what was written and not yet taken
by the host, oldest first (R44). -/
structure Channel where
  rx : List Byte
  tx : List TxItem
  deriving DecidableEq, Repr

/-- One clock cycle of an exchange, from idle-high to idle-high: the bit sent and the bit received (R45, R160). -/
structure Cycle where
  mosi : Bool
  miso : Bool
  deriving DecidableEq, Repr

/-- What the peripherals see of the bus controller (60_exceptions.md R245, R251). -/
inductive LineItem where
  /-- A slot's select line driven to a level (R46). -/
  | select (slot : Fin 2) (level : Bool)
  /-- The clock cycles of one byte exchange (R45). -/
  | exchange (cycles : List Cycle)
  deriving DecidableEq, Repr

/-- The peripheral side as an oracle (R48, R251): the responses of the next exchanges, oldest first; the number of
exchanges so far, the counter of the free values that stand in when no response is listed (DESIGN CHOICE, safe: log
5); the schedule of the ACK latch, one entry for each access to B.ack to come, true when an ACK edge lands before that
access and after the one before it (20_memory.md R63; DEDUCED, safe: log 6); and everything the peripherals have
seen. -/
structure Device where
  answers : List Byte
  drawn : Nat
  ackEdges : List Bool
  seen : List LineItem
  deriving DecidableEq, Repr

/-- The caller's buffers (R42). A command names no buffer of its own: each role has this one, and no two roles share one
(30_encoding.md R88 makes them arguments, 20_memory.md R61 leaves their place to the caller; DESIGN CHOICE, unsafe for
claims across commands: log 22). -/
structure Buffers where
  outBuf : Vector Byte 128
  inBuf : Vector Byte 128
  padBuf : Vector Byte 2
  deriving DecidableEq, Repr

/-! ## Host side -/

/-- The typed result of a command (30_encoding.md R88). -/
inductive Result where
  | unit
  | packet (p : Option Packet)
  | byte (b : Byte)
  | bool (ok : Bool)
  deriving DecidableEq, Repr

/-- The internal events (60_exceptions.md R231 to R233), with the value each one records. No result shows them. -/
inductive Event where
  | packet (p : Packet)
  | addrMismatch (address : Byte)
  | badLength
  | checksum (received computed : Byte)
  | frameAbandoned (phase : Phase)
  | devAbsent
  | badAck1
  | badStatus
  | badChecksum
  | padId
  | ackTimeout
  deriving DecidableEq, Repr

/-- How the host presents a command: it waits for it to run to its end; it lets other agents move between the
transfers of an operation; or it presents it while the same block is running a command (R265). -/
inductive Mode where
  | whole
  | turnwise
  | overlapping
  deriving DecidableEq, Repr

/-- A move of an agent outside the foreground, or of the host (60_exceptions.md R243, R250). -/
inductive Input where
  /-- Bytes presented at a port. -/
  | request (mode : Mode) (port : Port) (bytes : List Byte)
  /-- The bus controller performs the next transfer of the operation in progress. -/
  | busTurn
  /-- An edge on the ACK input (R240). -/
  | ackEdge (e : Edge)
  /-- The peripheral gives a response byte (R251). -/
  | answer (b : Byte)
  /-- A byte arrives in the decoder's channel. -/
  | receive (b : Byte)
  /-- The host takes the oldest n items off the encoder's channel. -/
  | drain (n : Nat)
  /-- The caller changes a buffer of its own. -/
  | setOut (v : Vector Byte 128)
  | setIn (v : Vector Byte 128)
  | setPad (v : Vector Byte 2)
  /-- Power is cycled (R248, R260). -/
  | powerCycle
  deriving DecidableEq, Repr

/-- The state. `inputs` is what the agents do next, in order (DESIGN CHOICE, safe: log 12); `results` and
`events` are the model's records of what commands have returned and raised so far, oldest first (DESIGN CHOICE, safe:
log 16). -/
structure State where
  dec : Dec
  bus : Bus
  chan : Channel
  bufs : Buffers
  dev : Device
  inputs : List Input
  results : List Result
  events : List Event
  deriving DecidableEq, Repr

/-- Nothing in this hardware faults: no rule of the spec stops the machine with a fault (60_exceptions.md R239,
93_implementation_defined.md section 3), so there is no constructor. -/
inductive Fault where
  deriving DecidableEq, Repr

/-- The refusals of 60_exceptions.md R234, and the model's own. Each one ends the run (R235), and each is safe: a
claim about what follows is then unprovable. -/
inductive Refusal where
  /-- An instruction that has no meaning yet, rejected by name in Dispatch.lean. No arm raises it. Safe. -/
  | notModelled (mnemonic : String)
  /-- REF_UNDEFINED_CMD: raised by the step for a code that is not of the block it is presented to. Safe. -/
  | undefinedCmd (code : Byte)
  /-- REF_BUSY: raised by the step for an overlapping command, and by every command of the bus controller while an
  operation is in progress. Safe. -/
  | busy
  /-- REF_NODE: raised by ENC_SEND and DEC_SET_NODE. Safe. -/
  | node
  /-- REF_LEN: raised by ENC_SEND. Safe. -/
  | len
  /-- REF_SLOT: raised by BUS_BEGIN and the peripheral operations. Safe. -/
  | slot
  /-- REF_SECTOR: raised by MC_READ, MC_PROBE and MC_WRITE. Safe. -/
  | sector
  /-- REF_SESSION_OPEN: raised by BUS_BEGIN and the peripheral operations. Safe. -/
  | sessionOpen
  /-- REF_NO_SESSION: raised by BUS_XFER, BUS_END and a byte code sent outside a session. Safe. -/
  | noSession
  /-- The caller changed a buffer while an operation ran, raised by the step (R267 and 93_implementation_defined.md
  section 2). Safe. -/
  | bufferInUse
  /-- The operand bytes of a command are not all there, or no byte is, raised by the step (the model's own layout,
  DESIGN CHOICE: log 1). Safe. -/
  | truncated
  /-- A byte at a port of the peripheral bus that no row of the opcode table names, raised by the step (DESIGN CHOICE: log 2). Any
  response byte can be given by the input `answer`, and any byte can be sent by BUS_XFER. Safe. -/
  | noRow (b : Byte)
  deriving DecidableEq, Repr

/-! ## Power-on (10_state.md R43, 70_reset_and_hazards.md R260) -/

/-- The decoder after power-on. `node` and `len` are unspecified there and named 0 here (DESIGN CHOICE, unsafe: log
3). -/
def Dec.reset : Dec where
  phase := .waitSync
  esc := false
  count := 0
  node := 0
  len := 0
  payload := []
  armed := false
  localNode := Config.localNode

/-- The bus controller after power-on. -/
def Bus.reset : Bus where
  ack := false
  compat := false
  session := none
  sel := Vector.replicate 2 true
  now := 0
  op := none

/-- The machine right after power-on, its collaborators idle: nothing on the channel, nothing listed for the
peripherals, buffers of zeros (DESIGN CHOICE, unsafe: log 4), and no command presented (R261). -/
def State.reset : State where
  dec := Dec.reset
  bus := Bus.reset
  chan := ⟨[], []⟩
  bufs := ⟨Vector.replicate 128 0, Vector.replicate 128 0, Vector.replicate 2 0⟩
  dev := ⟨[], 0, [], []⟩
  inputs := []
  results := []
  events := []

end Sys2Proof.Machine
end

