-- ==== Sys2Proof/Machine/Operands.lean ====
section
/-! DEFINITION. The pure functions over operands: the checksum, the escape code and the frame (40_packet_encoder.md
R100 to R102), the argument domains (60_exceptions.md R234), the bytes of a sector address (30_encoding.md R84), the
bits of an exchange (10_state.md R45) and the elements of a buffer (00_scope.md R11). -/

namespace Sys2Proof.Machine

/-! ## Frame -/

/-- R100: the node number plus every payload byte, mod 256. The Length byte is not in it. -/
def checksum (n : Byte) (payload : List Byte) : Byte :=
  payload.foldl (· + ·) n

/-- R73, R101. -/
def esc (b : Byte) : List Byte :=
  if b = Config.sync ∨ b = Config.escape then [Config.escape, b - 1] else [b]

/-- The length field of a payload (R71, R72): it counts payload bytes only. -/
def lengthField (payload : List Byte) : Byte := BitVec.ofNat 8 payload.length

/-- R102, in the layout of R70. -/
def frame (n : Byte) (payload : List Byte) : List Byte :=
  [Config.sync] ++ esc n ++ esc (lengthField payload) ++ payload.flatMap esc ++ esc (checksum n payload)

/-- R23: the validity of a packet. -/
def Packet.valid (p : Packet) : Bool := p.checksum == Machine.checksum p.nodeNo p.payload

/-! ## Argument domains -/

/-- R104: a node number a packet may carry. -/
def packetNodeOk (n : Byte) : Bool := decide (n ≤ Config.nodeMax) || n == Config.broadcast

/-- R31, R135: a node number the decoder may hold. -/
def localNodeOk (n : Byte) : Bool := decide (n ≤ Config.nodeMax)

/-- R105. -/
def payloadOk (payload : List Byte) : Bool := decide (payload.length ≤ Config.payloadMax)

/-- R162, R192: slot 0 or slot 1. -/
def slotOk (slot : Byte) : Bool := decide (slot ≤ 1)

/-- The slot a slot operand names. It is read only where `slotOk` holds. -/
def slotIndex (slot : Byte) : Fin 2 := if slot = 0 then 0 else 1

/-- R192. -/
def sectorOk (sector : U16) : Bool := decide (sector ≤ Config.sectorMax)

/-! ## Sector address (R84) -/

def sectorHi (sector : U16) : Byte := sector.extractLsb' 8 8

def sectorLo (sector : U16) : Byte := sector.extractLsb' 0 8

/-! ## Exchange (R45, R160) -/

/-- The eight clock cycles of an exchange: bit 0 of both bytes goes first. -/
def shiftCycles (sent received : Byte) : List Cycle :=
  (List.range 8).map (fun k => ⟨sent.getLsbD k, received.getLsbD k⟩)

/-- The byte whose bit 0 is the first of eight bits. -/
def assemble (bits : List Bool) : Byte := (BitVec.ofBoolListLE bits).setWidth 8

/-- The byte a list of clock cycles carried out. -/
def cyclesSent (cycles : List Cycle) : Byte := assemble (cycles.map Cycle.mosi)

/-- The byte a list of clock cycles carried in. -/
def cyclesReceived (cycles : List Cycle) : Byte := assemble (cycles.map Cycle.miso)

/-! ## Buffers (R11) -/

def bufGet {n : Nat} (v : Vector Byte n) (k : Nat) : Byte := v[k]?.getD 0

def bufSet {n : Nat} (v : Vector Byte n) (k : Nat) (b : Byte) : Vector Byte n := v.setIfInBounds k b

end Sys2Proof.Machine
end

