-- ==== Sys2Proof/Machine/Flags.lean ====
section
/-! DEFINITION. Every flag computation of 10_state.md R40: D.esc (41_packet_decoder.md R122, R123), B.ack with its latch
and its wait (42_psx_bus_controller.md R161, R163, R165) and B.compat (R164, R166). D.armed is written by the arms of
Parser.lean. -/

namespace Sys2Proof.Machine

/-! ## D.esc -/

/-- R122: the marker is pending. -/
def Dec.markEscape (d : Dec) : Dec := { d with esc := true }

/-- R123: the value of a raw byte that reaches the phase arms. -/
def unescapeValue (esc : Bool) (r : Byte) : Byte := if esc then r + 1 else r

/-- R123: the byte that follows a marker uses it up. -/
def Dec.clearEscape (d : Dec) : Dec := { d with esc := false }

/-! ## B.ack -/

/-- What the ACK wait reads and advances: the flag, the latch's schedule and the microsecond clock. -/
structure AckView where
  ack : Bool
  edges : List Bool
  now : Nat
  deriving DecidableEq, Repr

/-- The latch's turn before one access to B.ack by the foreground (R161, 20_memory.md R63): an edge sets the flag, and
several edges are as one (60_exceptions.md R238). -/
def AckView.latch (w : AckView) : AckView :=
  { w with ack := w.ack || w.edges.headD false, edges := w.edges.tail }

/-- AckClear (R163): the latch may come first, and its set is then erased (20_memory.md R64). -/
def AckView.clear (w : AckView) : AckView := { w.latch with ack := false }

/-- One microsecond of DelayUs. -/
def AckView.tick (w : AckView) : AckView := { w with now := w.now + 1 }

/-- ACK_WAIT (R165) with `remaining` microseconds left: one read of the flag, then the answer or a microsecond more. -/
def ackWait : Nat → AckView → Bool × AckView
  | 0, w => (w.latch.ack, w.latch)
  | remaining + 1, w => if w.latch.ack then (true, w.latch) else ackWait remaining w.latch.tick

/-! ## B.compat -/

/-- EFFECTIVE_TIMEOUT (R164). -/
def effectiveTimeout (compat : Bool) (timeout : U32) : Nat :=
  if compat then timeout.toNat else Config.tAckUs

/-- R166, R167: a wait that ends without an ACK sets the flag, and nothing in a transfer clears it. -/
def compatAfter (compat acked : Bool) : Bool := compat || !acked

/-- R163, R233: the events of a wait. -/
def waitEvents (compat acked : Bool) : List Event := if !acked && !compat then [.ackTimeout] else []

end Sys2Proof.Machine
end

