-- ==== Sys2Proof/Machine/Ops.lean ====
section
/-! DEFINITION. The named operations on the state: one update for each part of it, the external primitives of
00_scope.md R12, the transfer core (42_psx_bus_controller.md R160 to R168), and the order of a command's checks
(60_exceptions.md R236). The hardware has no memory, no trap and no return from one (20_memory.md R50, 60_exceptions.md
R239), so there is no operation for either. -/

namespace Sys2Proof.Machine

/-! ## Updates -/

def State.withDec (s : State) (d : Dec) : State := { s with dec := d }
def State.withBus (s : State) (b : Bus) : State := { s with bus := b }
def State.withChan (s : State) (c : Channel) : State := { s with chan := c }
def State.withBufs (s : State) (b : Buffers) : State := { s with bufs := b }
def State.withDev (s : State) (d : Device) : State := { s with dev := d }
def State.withInputs (s : State) (q : List Input) : State := { s with inputs := q }

/-- A command's result. -/
def State.returns (s : State) (r : Result) : State := { s with results := s.results ++ [r] }

/-- Internal events, in the order they are raised. -/
def State.raises (s : State) (e : List Event) : State := { s with events := s.events ++ e }

/-! ## Checks -/

/-- The first check that applies refuses the command before any effect; else the command has its effect (R236). -/
def checked : List (Bool × Refusal) → State → Host.Outcome State Fault Refusal
  | [], s => .next s
  | (applies, r) :: more, s => if applies then .refused r else checked more s

/-! ## Transport channel (R44) -/

/-- ChanWrite of each byte in order. -/
def State.chanWrite (s : State) (bs : List Byte) : State :=
  s.withChan { s.chan with tx := s.chan.tx ++ bs.map .byte }

/-- ChanFlush. -/
def State.chanFlush (s : State) : State := s.withChan { s.chan with tx := s.chan.tx ++ [.flush] }

/-! ## Peripheral line (R45, R46) -/

/-- SetSel, which the peripherals see. -/
def State.setSel (s : State) (slot : Fin 2) (level : Bool) : State :=
  (s.withBus { s.bus with sel := s.bus.sel.set slot level }).withDev
    { s.dev with seen := s.dev.seen ++ [.select slot level] }

/-- DelayUs. -/
def State.delay (s : State) (n : Nat) : State := s.withBus { s.bus with now := s.bus.now + n }

/-- The response of the exchange that is `n` exchanges away: the listed one, or a free value (R251; DESIGN CHOICE, safe: log
5). -/
def Device.answerAt (d : Device) (n : Nat) : Byte := d.answers[n]?.getD (Config.freeAnswer (d.drawn + n))

/-- Exchange (R160): eight clock cycles carry `c` out and the peripheral's response in. -/
def State.exchange (tXchg : Nat) (c : Byte) (s : State) : Byte × State :=
  (cyclesReceived (shiftCycles c (s.dev.answerAt 0)),
    (s.delay tXchg).withDev { s.dev with
      answers := s.dev.answers.tail
      drawn := s.dev.drawn + 1
      seen := s.dev.seen ++ [.exchange (shiftCycles c (s.dev.answerAt 0))] })

/-! ## The ACK flag in the state -/

def State.ackView (s : State) : AckView := ⟨s.bus.ack, s.dev.ackEdges, s.bus.now⟩

def State.withAckView (s : State) (w : AckView) : State :=
  (s.withBus { s.bus with ack := w.ack, now := w.now }).withDev { s.dev with ackEdges := w.edges }

/-- R161: an edge on the ACK input. Only an edge of direction ACK_EDGE sets the flag. The boot-time duties of R264 are
not the CORE's state (DEDUCED, safe: log 20). -/
def State.latchEdge (ackEdge e : Edge) (s : State) : State :=
  s.withBus { s.bus with ack := s.bus.ack || e == ackEdge }

/-! ## Transfer core -/

/-- The end of a transfer's wait (R163, R166). -/
def State.noteWait (s : State) (acked : Bool) : State :=
  (s.withBus { s.bus with compat := compatAfter s.bus.compat acked }).raises (waitEvents s.bus.compat acked)

/-- The state in which a transfer's exchange begins: after the pre-delay, and with the flag cleared (R163, D23). -/
def State.armTransfer (s : State) (predelay : U32) : State :=
  (s.delay predelay.toNat).withAckView (s.delay predelay.toNat).ackView.clear

/-- The ACK wait that follows an exchange and what it does to the mode (R163 to R166). -/
def State.awaitAck (s : State) (timeout : U32) : State :=
  let waited := ackWait (effectiveTimeout s.bus.compat timeout) s.ackView
  (s.withAckView waited.2).noteWait waited.1

/-- BUS_XFER inside a session (R163): the response byte, and the state after it. -/
def State.transfer (tXchg : Nat) (c : Byte) (t : Timing) (s : State) : Byte × State :=
  let exchanged := (s.armTransfer t.predelay).exchange tXchg c
  (exchanged.1, exchanged.2.awaitAck t.timeout)

/-- BUS_BEGIN without its checks (R162). -/
def State.beginSession (s : State) (slot : Fin 2) : State :=
  (s.withBus { s.bus with compat := false, session := some slot }).setSel slot false

/-- BUS_END without its checks (R168). -/
def State.endSession (s : State) : State :=
  match s.bus.session with
  | some slot => (s.setSel slot true).withBus { (s.setSel slot true).bus with session := none }
  | none => s

end Sys2Proof.Machine
end

