-- ==== Sys2Proof/Machine/Parser.lean ====
section
/-! DEFINITION. The decoder's per-byte step, one function for each rule R120 to R131 of 41_packet_decoder.md. -/

namespace Sys2Proof.Machine

/-- What one byte does: the next record, the packet it completes, and the event it raises, at most one (60_exceptions.md
R237). -/
structure DecStep where
  dec : Dec
  out : Option Packet
  event : Option Event
  deriving DecidableEq, Repr

/-- R131. The node number, the length and the local node number keep their values. -/
def Dec.fresh (d : Dec) : Dec := { d with phase := .waitSync, esc := false, count := 0, payload := [] }

/-- R130. -/
def Dec.drop (d : Dec) : Dec := { d.fresh with armed := false }

/-- R121. -/
def Dec.syncArm (d : Dec) : DecStep where
  dec := { d.fresh with armed := true }
  out := none
  event := if d.phase = .waitSync then none else some (.frameAbandoned d.phase)

/-- R122. -/
def Dec.escArm (d : Dec) : DecStep := ⟨d.markEscape, none, none⟩

/-- R124, in both hunt modes (DEDUCED, unsafe: log 13). -/
def Dec.addrArm (d : Dec) (v : Byte) : DecStep :=
  if v = d.localNode ∨ v = Config.broadcast then ⟨{ d with node := v, phase := .gotAddress }, none, none⟩
  else ⟨d.drop, none, some (.addrMismatch v)⟩

/-- R126. -/
def Dec.lenArm (d : Dec) (v : Byte) : DecStep :=
  if v = 255 then ⟨d.drop, none, some .badLength⟩
  else
    ⟨{ d with len := v, count := 0, payload := [], phase := if v = 0 then .receivedAll else .receivingData }, none, none⟩

/-- R127. -/
def Dec.dataArm (d : Dec) (v : Byte) : DecStep :=
  ⟨{ d with
      payload := d.payload ++ [v]
      count := d.count + 1
      phase := if d.count + 1 = d.len then .receivedAll else d.phase }, none, none⟩

/-- R128, R129. -/
def Dec.chkArm (d : Dec) (v : Byte) : DecStep :=
  if v = checksum d.node d.payload then
    ⟨d.drop, some ⟨d.node, d.payload, v⟩, some (.packet ⟨d.node, d.payload, v⟩)⟩
  else ⟨d.drop, none, some (.checksum v (checksum d.node d.payload))⟩

/-- The phase arms of R120, on the unescaped value. -/
def Dec.phaseArm (d : Dec) (v : Byte) : DecStep :=
  match d.phase with
  | .waitSync => d.addrArm v
  | .gotAddress => d.lenArm v
  | .receivingData => d.dataArm v
  | .receivedAll => d.chkArm v

/-- R125: the parser hunts for a SYNC, and ignores every other byte. -/
def Dec.hunting (d : Dec) (mode : HuntMode) : Bool :=
  d.phase == .waitSync && !d.armed && mode == .strict

/-- R120. -/
def decStep (mode : HuntMode) (d : Dec) (r : Byte) : DecStep :=
  if r = Config.sync then d.syncArm
  else if d.hunting mode then ⟨d, none, none⟩
  else if d.esc = false ∧ r = Config.escape then d.escArm
  else d.clearEscape.phaseArm (unescapeValue d.esc r)

/-- What consuming bytes up to the first packet does: the record, the packet, the events in order, and the bytes left. -/
structure Drained where
  dec : Dec
  out : Option Packet
  events : List Event
  rest : List Byte
  deriving DecidableEq, Repr

/-- The loop of DEC_POLL over the bytes of its snapshot (R133). -/
def drain (mode : HuntMode) (d : Dec) : List Byte → Drained
  | [] => ⟨d, none, [], []⟩
  | r :: rs =>
    match (decStep mode d r).out with
    | some p => ⟨(decStep mode d r).dec, some p, (decStep mode d r).event.toList, rs⟩
    | none =>
      let more := drain mode (decStep mode d r).dec rs
      { more with events := (decStep mode d r).event.toList ++ more.events }

/-- One raw byte given to the decoder, its packet or none returned (R132). -/
def State.feed (mode : HuntMode) (s : State) (r : Byte) : State :=
  ((s.withDec (decStep mode s.dec r).dec).raises (decStep mode s.dec r).event.toList).returns
    (.packet (decStep mode s.dec r).out)

/-- DEC_POLL (R133): every byte the channel holds is in the snapshot, and bytes behind a packet stay (DEDUCED, safe:
log 19). -/
def State.poll (mode : HuntMode) (s : State) : State :=
  (((s.withDec (drain mode s.dec s.chan.rx).dec).withChan { s.chan with rx := (drain mode s.dec s.chan.rx).rest }).raises
    (drain mode s.dec s.chan.rx).events).returns (.packet (drain mode s.dec s.chan.rx).out)

end Sys2Proof.Machine
end

