-- ==== Sys2Proof/Machine/Decoder.lean ====
section
/-! DEFINITION. The commands of packet_decoder: DEC_FEED, DEC_POLL, DEC_SET_NODE (41_packet_decoder.md R132, R133,
R135). -/

namespace Sys2Proof.Machine

/-- R132. -/
def execDecFeed (b : Byte) (s : State) : Host.Outcome State Fault Refusal :=
  .next (s.feed Config.huntMode b)

/-- R133. -/
def execDecPoll (s : State) : Host.Outcome State Fault Refusal :=
  .next (s.poll Config.huntMode)

/-- R135. -/
def execDecSetNode (node : Byte) (s : State) : Host.Outcome State Fault Refusal :=
  checked [(!localNodeOk node, .node)] ((s.withDec { s.dec with localNode := node }).returns .unit)

end Sys2Proof.Machine
end

