-- ==== Sys2Proof/Machine/Encoder.lean ====
section
/-! DEFINITION. packet_encoder: ENC_SEND (40_packet_encoder.md R103 to R105). -/

namespace Sys2Proof.Machine

/-- R103: the frame's bytes in order, then one flush. -/
def execEncSend (nodeNo : Byte) (payload : List Byte) (s : State) : Host.Outcome State Fault Refusal :=
  checked [(!packetNodeOk nodeNo, .node), (!payloadOk payload, .len)]
    (((s.chanWrite (frame nodeNo payload)).chanFlush).returns .unit)

end Sys2Proof.Machine
end

