-- ==== Sys2Proof/Machine/Sequencer.lean ====
section
/-! DEFINITION. The operation sequencer of psx_bus_controller: what each peripheral operation sends at its k-th
transfer, what it does with the response, and how it starts and ends (43_peripheral_operations.md R190 to R206). The
index k and the values the pseudocode carries stand in the state (10_state.md R39), so that the other agents may move
between two transfers; a command runs all of them (20_memory.md R58). -/

namespace Sys2Proof.Machine

/-- The operation at its first transfer. -/
def OpRun.start (kind : OpKind) (sector : U16) : OpRun := ⟨kind, sector, 1, 0, 0, 0⟩

/-- The largest k an operation reaches (R208). -/
def OpKind.transfers : OpKind → Nat
  | .mcRead => 140
  | .mcProbe => 4
  | .mcWrite => 138
  | .padPoll => 6

/-- TIMING of R191. -/
def OpKind.timing (p : BusParams) : OpKind → Nat → Timing
  | .mcRead => p.rd
  | .mcProbe => p.rd
  | .mcWrite => p.wr
  | .padPoll => p.pad

/-! ## The byte sent at transfer k -/

/-- R193: device select, 'R', the sector address at 5 and 6, and the filler at every read. -/
def OpRun.readSends (r : OpRun) : Byte :=
  if r.k = 1 then Config.devMc
  else if r.k = 2 then Config.cmdRead
  else if r.k = 5 then sectorHi r.sector
  else if r.k = 6 then sectorLo r.sector
  else Config.filler

/-- R199: the sector is never sent. -/
def OpRun.probeSends (r : OpRun) : Byte :=
  if r.k = 1 then Config.devMc
  else if r.k = 2 then Config.cmdRead
  else Config.filler

/-- R201: device select, 'W', the sector address at 5 and 6, In[k-7] at 7 to 134, the checksum at 135. -/
def OpRun.writeSends (r : OpRun) (input : Vector Byte 128) : Byte :=
  if r.k = 1 then Config.devMc
  else if r.k = 2 then Config.cmdWrite
  else if r.k = 5 then sectorHi r.sector
  else if r.k = 6 then sectorLo r.sector
  else if 7 ≤ r.k ∧ r.k ≤ 134 then bufGet input (r.k - 7)
  else if r.k = 135 then r.chk
  else Config.filler

/-- R204. -/
def OpRun.padSends (r : OpRun) : Byte :=
  if r.k = 1 then Config.devPad
  else if r.k = 2 then Config.cmdPoll
  else Config.filler

def OpRun.sends (r : OpRun) (input : Vector Byte 128) : Byte :=
  match r.kind with
  | .mcRead => r.readSends
  | .mcProbe => r.probeSends
  | .mcWrite => r.writeSends input
  | .padPoll => r.padSends

/-! ## The response to transfer k -/

/-- What follows a transfer: the next one, or the end of the operation with its result and its event. -/
inductive Verdict where
  | goOn (r : OpRun)
  | done (ok : Bool) (events : List Event)
  deriving DecidableEq, Repr

/-- The next transfer. -/
def OpRun.next (r : OpRun) : Verdict := .goOn { r with k := r.k + 1 }

/-- R194: the absent-device check on the response to the command byte. -/
def OpRun.absentCheck (r : OpRun) (b : Byte) : Verdict :=
  if b = Config.rspFail then .done false [.devAbsent] else r.next

/-- R193, R195 to R197. A bad status is named before a bad checksum (60_exceptions.md R236). -/
def OpRun.readJudges (r : OpRun) (b : Byte) : Verdict :=
  if r.k = 2 then r.absentCheck b
  else if r.k = 7 then (if b = Config.mcAck1 then r.next else .done false [.badAck1])
  else if r.k < 9 then r.next
  else if r.k = 9 then { r with chk := b }.next
  else if r.k < 139 then { r with chk := r.chk ^^^ b }.next
  else if r.k = 139 then { r with rx := b }.next
  else if b ≠ Config.stGood then .done false [.badStatus]
  else if r.chk ≠ r.rx then .done false [.badChecksum]
  else .done true []

/-- R199. -/
def OpRun.probeJudges (r : OpRun) (b : Byte) : Verdict :=
  if r.k = 2 then r.absentCheck b
  else if r.k = 3 then { r with id0 := b }.next
  else if r.k < 4 then r.next
  else if r.id0 = Config.mcId0 then .done true []
  else .done false [.devAbsent]

/-- R201 to R203: the checksum is folded over the bytes sent at 5 to 134; no response but those to 2 and 138 is
tested. -/
def OpRun.writeJudges (r : OpRun) (sent b : Byte) : Verdict :=
  if r.k = 2 then r.absentCheck b
  else if r.k < 5 then r.next
  else if r.k = 5 then { r with chk := sent }.next
  else if r.k < 135 then { r with chk := r.chk ^^^ sent }.next
  else if r.k < 138 then r.next
  else if b = Config.stGood then .done true []
  else .done false [.badStatus]

/-- R204 to R206. -/
def OpRun.padJudges (r : OpRun) (b : Byte) : Verdict :=
  if r.k = 3 then { r with id0 := b }.next
  else if r.k = 4 then (if r.id0 = Config.padId0 ∧ b = Config.padId1 then r.next else .done false [.padId])
  else if r.k < 6 then r.next
  else .done true []

def OpRun.judges (r : OpRun) (sent b : Byte) : Verdict :=
  match r.kind with
  | .mcRead => r.readJudges b
  | .mcProbe => r.probeJudges b
  | .mcWrite => r.writeJudges sent b
  | .padPoll => r.padJudges b

/-- The caller's buffers after the response to transfer k: Out[k-11] at 11 to 138 of MC_READ (R198), Pad at 4, 5 and 6 of
PAD_POLL (R204, R206), and no buffer else. Each role has its one buffer (DESIGN CHOICE, unsafe for claims across commands:
log 22). -/
def OpRun.stores (r : OpRun) (b : Byte) (bufs : Buffers) : Buffers :=
  match r.kind with
  | .mcRead => if 11 ≤ r.k ∧ r.k ≤ 138 then { bufs with outBuf := bufSet bufs.outBuf (r.k - 11) b } else bufs
  | .mcProbe => bufs
  | .mcWrite => bufs
  | .padPoll =>
    if r.k = 4 ∧ ¬(r.id0 = Config.padId0 ∧ b = Config.padId1) then { bufs with padBuf := Vector.replicate 2 0 }
    else if r.k = 5 then { bufs with padBuf := bufSet bufs.padBuf 0 b }
    else if r.k = 6 then { bufs with padBuf := bufSet bufs.padBuf 1 b }
    else bufs

/-! ## Running -/

/-- The operation goes on, or it closes the session and returns its result (R190). -/
def State.settle (s : State) : Verdict → State
  | .goOn r => s.withBus { s.bus with op := some r }
  | .done ok events => ((s.endSession.withBus { s.endSession.bus with op := none }).raises events).returns (.bool ok)

/-- The transfer X(k, c) of the operation in progress and what follows it (R191). -/
def State.turnOf (p : BusParams) (r : OpRun) (s : State) : State :=
  let c := r.sends s.bufs.inBuf
  let moved := s.transfer p.tXchg c (r.kind.timing p r.k)
  (moved.2.withBufs (r.stores moved.1 moved.2.bufs)).settle (r.judges c moved.1)

/-- The bus controller's next turn. Without an operation in progress it has nothing to do. -/
def State.turn (p : BusParams) (s : State) : State :=
  match s.bus.op with
  | some r => s.turnOf p r
  | none => s

/-- A number of turns. -/
def State.turns (p : BusParams) : Nat → State → State
  | 0, s => s
  | n + 1, s => (s.turn p).turns p n

/-- The checks of an operation, in the order of R192, R200 and R204, after REF_BUSY (60_exceptions.md R236). PAD_POLL has
no sector. -/
def opChecks (kind : OpKind) (slot : Byte) (sector : U16) (s : State) : List (Bool × Refusal) :=
  [(s.bus.op.isSome, .busy), (!slotOk slot, .slot), (kind != .padPoll && !sectorOk sector, .sector),
    (s.bus.session.isSome, .sessionOpen)]

/-- BUS_BEGIN of an operation (R190), with the operation at its first transfer. -/
def State.openOp (s : State) (kind : OpKind) (slot : Byte) (sector : U16) : State :=
  (s.beginSession (slotIndex slot)).withBus
    { (s.beginSession (slotIndex slot)).bus with op := some (OpRun.start kind sector) }

/-- An operation up to its first transfer. -/
def startOp (kind : OpKind) (slot : Byte) (sector : U16) (s : State) : Host.Outcome State Fault Refusal :=
  checked (opChecks kind slot sector s) (s.openOp kind slot sector)

/-- An operation from its checks to its result. -/
def operate (p : BusParams) (kind : OpKind) (slot : Byte) (sector : U16) (s : State) :
    Host.Outcome State Fault Refusal :=
  checked (opChecks kind slot sector s) ((s.openOp kind slot sector).turns p kind.transfers)

end Sys2Proof.Machine
end

