-- ==== Sys2Proof/Machine/Transfer.lean ====
section
/-! DEFINITION. The session and transfer commands of psx_bus_controller: BUS_BEGIN, BUS_XFER, BUS_END
(42_psx_bus_controller.md R162, R163, R168). REF_BUSY comes before a command's own refusals (60_exceptions.md R236). -/

namespace Sys2Proof.Machine

/-- R162. -/
def execBusBegin (slot : Byte) (s : State) : Host.Outcome State Fault Refusal :=
  checked [(s.bus.op.isSome, .busy), (!slotOk slot, .slot), (s.bus.session.isSome, .sessionOpen)]
    ((s.beginSession (slotIndex slot)).returns .unit)

/-- BUS_XFER with the parameters of the bus given. -/
def busXfer (tXchg : Nat) (cmd : Byte) (t : Timing) (s : State) : Host.Outcome State Fault Refusal :=
  checked [(s.bus.op.isSome, .busy), (s.bus.session.isNone, .noSession)]
    ((s.transfer tXchg cmd t).2.returns (.byte (s.transfer tXchg cmd t).1))

/-- R163. -/
def execBusXfer (cmd : Byte) (timeout predelay : U32) (s : State) : Host.Outcome State Fault Refusal :=
  busXfer Config.tXchgUs cmd ⟨timeout, predelay⟩ s

/-- R168. -/
def execBusEnd (s : State) : Host.Outcome State Fault Refusal :=
  checked [(s.bus.op.isSome, .busy), (s.bus.session.isNone, .noSession)] (s.endSession.returns .unit)

end Sys2Proof.Machine
end

