-- ==== Sys2Proof/Machine/Line.lean ====
section
/-! DEFINITION. The byte codes of the peripheral bus (30_encoding.md R81 to R85, 43_peripheral_operations.md R205). A byte
code that is sent is one transfer of it. A byte code that is received is the peripheral's response, and any of the 256
values may be one (R86). -/

namespace Sys2Proof.Machine

/-- A byte code goes out (DESIGN CHOICE, unsafe for claims about it alone: log 9). In an operation whose next transfer
sends this byte, it is that transfer (R191); an operation that sends another byte next is not to be disturbed
(REF_BUSY). Outside an operation it is a transfer in the open session (R163). -/
def sendCode (p : BusParams) (c : Byte) (s : State) : Host.Outcome State Fault Refusal :=
  match s.bus.op with
  | some r => checked [(r.sends s.bufs.inBuf != c, .busy)] (s.turn p)
  | none => busXfer p.tXchg c (p.line c) s

/-- A response byte comes in (R251; DESIGN CHOICE, unsafe for claims about it alone: log 10): in an operation it is the
response to the next transfer, which takes place; else it is listed for a later exchange. -/
def State.answered (p : BusParams) (b : Byte) (s : State) : State :=
  match s.bus.op with
  | some _ => (s.withDev { s.dev with answers := b :: s.dev.answers }).turn p
  | none => s.withDev { s.dev with answers := s.dev.answers ++ [b] }

/-! ## Sent -/

/-- R81: device select, controller. -/
def execSelPad (s : State) : Host.Outcome State Fault Refusal := sendCode Config.busParams Config.devPad s

/-- R81: device select, memory card. -/
def execSelMc (s : State) : Host.Outcome State Fault Refusal := sendCode Config.busParams Config.devMc s

/-- R82: 'R'. -/
def execCmdReadR (s : State) : Host.Outcome State Fault Refusal := sendCode Config.busParams Config.cmdRead s

/-- R82: 'W'. -/
def execCmdWriteW (s : State) : Host.Outcome State Fault Refusal := sendCode Config.busParams Config.cmdWrite s

/-- R82: 'B'. -/
def execCmdPollB (s : State) : Host.Outcome State Fault Refusal := sendCode Config.busParams Config.cmdPoll s

/-- R85: the byte of a transfer that reads. -/
def execFiller (s : State) : Host.Outcome State Fault Refusal := sendCode Config.busParams Config.filler s

/-! ## Received -/

/-- R83, R194: absent or bad sector, tested at transfer 2 of the memory-card operations. -/
def execRspFail (s : State) : Host.Outcome State Fault Refusal := .next (s.answered Config.busParams Config.rspFail)

/-- R83, R199: memory card present, tested as the first ID byte of MC_PROBE. -/
def execMcId0 (s : State) : Host.Outcome State Fault Refusal := .next (s.answered Config.busParams Config.mcId0)

/-- R83, R195: the first acknowledge byte MC_READ requires. -/
def execMcAck1 (s : State) : Host.Outcome State Fault Refusal := .next (s.answered Config.busParams Config.mcAck1)

/-- R83, R197, R203: success status. -/
def execStGood (s : State) : Host.Outcome State Fault Refusal := .next (s.answered Config.busParams Config.stGood)

/-- R83: bad checksum, never tested for equality. -/
def execRspBadchk (s : State) : Host.Outcome State Fault Refusal := .next (s.answered Config.busParams Config.rspBadChk)

/-- R205: first byte of the digital-pad signature. -/
def execPadId0 (s : State) : Host.Outcome State Fault Refusal := .next (s.answered Config.busParams Config.padId0)

/-- R205: second byte of the digital-pad signature. -/
def execPadId1 (s : State) : Host.Outcome State Fault Refusal := .next (s.answered Config.busParams Config.padId1)

end Sys2Proof.Machine
end

