-- ==== Sys2Proof/Machine/Peripheral.lean ====
section
/-! DEFINITION. The peripheral operations as commands: MC_READ, MC_PROBE, MC_WRITE, PAD_POLL
(43_peripheral_operations.md R193, R199, R201, R204). Each runs all its transfers before it returns (20_memory.md
R58). -/

namespace Sys2Proof.Machine

/-- R193. -/
def execMcRead (slot : Byte) (sector : U16) (s : State) : Host.Outcome State Fault Refusal :=
  operate Config.busParams .mcRead slot sector s

/-- R199. -/
def execMcProbe (slot : Byte) (sector : U16) (s : State) : Host.Outcome State Fault Refusal :=
  operate Config.busParams .mcProbe slot sector s

/-- R201. -/
def execMcWrite (slot : Byte) (sector : U16) (s : State) : Host.Outcome State Fault Refusal :=
  operate Config.busParams .mcWrite slot sector s

/-- R204. -/
def execPadPoll (slot : Byte) (s : State) : Host.Outcome State Fault Refusal :=
  operate Config.busParams .padPoll slot 0 s

end Sys2Proof.Machine
end

