-- ==== Sys2Proof/Machine/Wire.lean ====
section
/-! DEFINITION. The wire byte classes of 30_encoding.md R78: the decoder consumes one raw byte of the class. The step
gives a raw byte its class from D.esc, so each class is met under its own condition; run under another one, the byte
is what it is in that state (DESIGN CHOICE, safe: log 8).

That a wire byte stands as an instruction of its own is the model's choice too (DESIGN CHOICE, unsafe for claims about it
alone: log 21): 60_exceptions.md R241 runs the decoder on DEC_FEED and DEC_POLL only, and a wire row acts as the DEC_FEED
of its byte, with a result, whatever bytes the channel still holds. -/

namespace Sys2Proof.Machine

/-- R121: a fresh packet, whatever the phase and the escape flag. By itself, as a DEC_FEED (log 21). -/
def execSync (s : State) : Host.Outcome State Fault Refusal :=
  .next (s.feed Config.huntMode Config.sync)

/-- R122: the marker is pending. By itself, as a DEC_FEED (log 21). -/
def execEscape (s : State) : Host.Outcome State Fault Refusal :=
  .next (s.feed Config.huntMode Config.escape)

/-- R123: the byte behind a marker, whose field value is one more. By itself, as a DEC_FEED
(log 21). -/
def execEscapedData (v : Byte) (s : State) : Host.Outcome State Fault Refusal :=
  .next (s.feed Config.huntMode v)

/-- R120: any other byte, whose field value is the byte. By itself, as a DEC_FEED (log 21). -/
def execData (v : Byte) (s : State) : Host.Outcome State Fault Refusal :=
  .next (s.feed Config.huntMode v)

end Sys2Proof.Machine
end

