-- ==== Sys2Proof/Machine/Dispatch.lean ====
section
/-! DEFINITION. One arm for each instruction: a direct call of its meaning. -/

namespace Sys2Proof.Machine

def exec (i : Instr) (s : State) : Host.Outcome State Fault Refusal :=
  match i with
  | .encSend nodeNo payload => Sys2Proof.Machine.execEncSend nodeNo payload s
  | .decFeed b => Sys2Proof.Machine.execDecFeed b s
  | .decPoll => Sys2Proof.Machine.execDecPoll s
  | .decSetNode node => Sys2Proof.Machine.execDecSetNode node s
  | .busBegin slot => Sys2Proof.Machine.execBusBegin slot s
  | .busXfer cmd timeout predelay => Sys2Proof.Machine.execBusXfer cmd timeout predelay s
  | .busEnd => Sys2Proof.Machine.execBusEnd s
  | .mcRead slot sector => Sys2Proof.Machine.execMcRead slot sector s
  | .mcProbe slot sector => Sys2Proof.Machine.execMcProbe slot sector s
  | .mcWrite slot sector => Sys2Proof.Machine.execMcWrite slot sector s
  | .padPoll slot => Sys2Proof.Machine.execPadPoll slot s
  | .sync => Sys2Proof.Machine.execSync s
  | .escape => Sys2Proof.Machine.execEscape s
  | .escapedData v => Sys2Proof.Machine.execEscapedData v s
  | .data v => Sys2Proof.Machine.execData v s
  | .selPad => Sys2Proof.Machine.execSelPad s
  | .selMc => Sys2Proof.Machine.execSelMc s
  | .cmdReadR => Sys2Proof.Machine.execCmdReadR s
  | .cmdWriteW => Sys2Proof.Machine.execCmdWriteW s
  | .cmdPollB => Sys2Proof.Machine.execCmdPollB s
  | .filler => Sys2Proof.Machine.execFiller s
  | .rspFail => Sys2Proof.Machine.execRspFail s
  | .mcId0 => Sys2Proof.Machine.execMcId0 s
  | .mcAck1 => Sys2Proof.Machine.execMcAck1 s
  | .stGood => Sys2Proof.Machine.execStGood s
  | .rspBadchk => Sys2Proof.Machine.execRspBadchk s
  | .padId0 => Sys2Proof.Machine.execPadId0 s
  | .padId1 => Sys2Proof.Machine.execPadId1 s

end Sys2Proof.Machine
end

