-- ==== Sys2Proof/Machine/Inputs.lean ====
section
/-! DEFINITION. What the host and the other agents do to the machine (60_exceptions.md R240, R243, R250, R251), and how
an instruction is fetched from the bytes presented at a port. -/

namespace Sys2Proof.Machine

/-! ## Presenting an instruction -/

/-- The refusal of bytes that are no instruction. -/
def refusalOf : DecodeError → Refusal
  | .empty => .truncated
  | .undefinedCmd code => .undefinedCmd code
  | .truncated _ => .truncated
  | .noRow b => .noRow b

/-- The instruction that bytes presented at a port begin with, in this state: the class of a wire byte depends on
D.esc (30_encoding.md R78). -/
def State.fetch (s : State) (port : Port) (bytes : List Byte) : Decoded := decode port s.dec.esc bytes

/-- The inputs that are left when an instruction has been taken: the bytes behind it are presented next, at the
same port and in the same mode (DESIGN CHOICE, unsafe for claims about a request of several instructions: log 25). -/
def leftover (mode : Mode) (port : Port) (rest : List Byte) (q : List Input) : List Input :=
  if rest = [] then q else .request mode port rest :: q

/-- A peripheral operation up to its first transfer, or any other instruction whole (DESIGN CHOICE, safe: log 11). -/
def startOnly (i : Instr) (s : State) : Host.Outcome State Fault Refusal :=
  match i with
  | .mcRead slot sector => startOp .mcRead slot sector s
  | .mcProbe slot sector => startOp .mcProbe slot sector s
  | .mcWrite slot sector => startOp .mcWrite slot sector s
  | .padPoll slot => startOp .padPoll slot 0 s
  | other => exec other s

/-- An instruction presented in a mode. One that overlaps a command of its own block is refused (R234, R265); a code
that is undefined is refused before that (R236). -/
def present (mode : Mode) (i : Instr) (s : State) : Host.Outcome State Fault Refusal :=
  match mode with
  | .whole => exec i s
  | .turnwise => startOnly i s
  | .overlapping => .refused .busy

/-- Bytes presented at a port, with the other inputs behind them. -/
def request (mode : Mode) (port : Port) (bytes : List Byte) (q : List Input) (s : State) :
    Host.Outcome State Fault Refusal :=
  match s.fetch port bytes with
  | .ok i rest => present mode i (s.withInputs (leftover mode port rest q))
  | .bad e => .refused (refusalOf e)

/-! ## The other moves -/

/-- The caller changes its buffers, which it must not do while an operation runs (R267). -/
def changeBuffers (b : Buffers) (s : State) : Host.Outcome State Fault Refusal :=
  checked [(s.bus.op.isSome, .bufferInUse)] (s.withBufs b)

/-- Power-on (R260): every field of the CORE takes its power-on value; the collaborators, the caller's buffers and what
the host has seen are not the CORE's and stay (DESIGN CHOICE, unsafe for claims about those: log 17). An operation in progress ends
with neither a return nor a refusal (DESIGN CHOICE, unsafe for claims across a power cycle: log 24). -/
def State.powerOn (s : State) : State := (s.withDec Dec.reset).withBus Bus.reset

/-- One input. -/
def accept (input : Input) (q : List Input) (s : State) : Host.Outcome State Fault Refusal :=
  match input with
  | .request mode port bytes => request mode port bytes q s
  | .busTurn => .next ((s.withInputs q).turn Config.busParams)
  | .ackEdge e => .next ((s.withInputs q).latchEdge Config.ackEdge e)
  | .answer b => .next ((s.withInputs q).answered Config.busParams b)
  | .receive b => .next ((s.withInputs q).withChan { s.chan with rx := s.chan.rx ++ [b] })
  | .drain n => .next ((s.withInputs q).withChan { s.chan with tx := s.chan.tx.drop n })
  | .setOut v => changeBuffers { s.bufs with outBuf := v } (s.withInputs q)
  | .setIn v => changeBuffers { s.bufs with inBuf := v } (s.withInputs q)
  | .setPad v => changeBuffers { s.bufs with padBuf := v } (s.withInputs q)
  | .powerCycle => .next (s.withInputs q).powerOn

/-- What happens next: the first input. When there is none, an operation in progress goes on with its next transfer, since
a command runs to its end (20_memory.md R58, 60_exceptions.md R249; DESIGN CHOICE, safe: log 23); with none in progress
the machine waits for a command (R261). -/
def advance (s : State) : Host.Outcome State Fault Refusal :=
  match s.inputs with
  | [] => .next (s.turn Config.busParams)
  | input :: q => accept input q s

end Sys2Proof.Machine
end

