-- ==== Sys2Proof/Machine/Step.lean ====
section
/-! DEFINITION. One step of the machine, and where it fetches its next instruction. -/

namespace Sys2Proof.Machine

/-- One step: the next move of the agents, which is a whole command unless it is presented otherwise. -/
def step (s : State) : Host.Outcome State Fault Refusal := advance s

/-- The state with a table word presented as the very next input, at the port the word is read at (DESIGN CHOICE, safe: log
2). Nothing else changes. A program is the list of inputs, which the host gives from outside the machine (DESIGN
CHOICE, safe: log 12). -/
def State.withFetchWord (s : State) (nbits w : Nat) : State :=
  s.withInputs (.request .whole (wordPort nbits w) (tableWordBytes nbits w) :: s.inputs)

end Sys2Proof.Machine
end

