-- ==== Sys2Proof/Safety.lean ====
section
/-! DEFINITION. What a good state is, and the terms in which claims speak of outcomes, of the decoder's stream of bytes,
of what an operation puts on the line, and of what timing may change. -/

namespace Sys2Proof.Machine

/-! ## Good states -/

/-- The decoder's record is consistent: the local node number is legal (10_state.md R31), the count is the payload's
length (R25, R28), and each phase has the count, the length and the node number its place in the frame gives it (R26,
R28, R41). -/
def Dec.Inv (d : Dec) : Prop :=
  localNodeOk d.localNode = true ∧ d.payload.length = d.count.toNat ∧
    match d.phase with
    | .waitSync => d.count = 0
    | .gotAddress => d.count = 0 ∧ packetNodeOk d.node = true
    | .receivingData => d.count < d.len ∧ d.len ≤ 254 ∧ packetNodeOk d.node = true
    | .receivedAll => d.count = d.len ∧ d.len ≤ 254 ∧ packetNodeOk d.node = true

/-- The bus controller's record is consistent: a select line is low exactly for the slot in session (R37), and an
operation in progress has a session and a transfer index in its range (R39, R191, R208). -/
def Bus.Inv (b : Bus) : Prop :=
  (∀ slot : Fin 2, b.sel[slot] = false ↔ b.session = some slot) ∧
    ∀ r, b.op = some r → b.session.isSome ∧ 1 ≤ r.k ∧ r.k ≤ r.kind.transfers

def State.Inv (s : State) : Prop := s.dec.Inv ∧ s.bus.Inv

/-! ## Outcomes -/

/-- The next state, if there is one. -/
def nextOf : Host.Outcome State Fault Refusal → Option State
  | .next s => some s
  | .fault _ => none
  | .refused _ => none

/-- The refusal, if there is one. -/
def refusalIn : Host.Outcome State Fault Refusal → Option Refusal
  | .next _ => none
  | .fault _ => none
  | .refused r => some r

/-- An outcome with its next state seen through a function. -/
def seenThrough (f : State → State) : Host.Outcome State Fault Refusal → Host.Outcome State Fault Refusal
  | .next s => .next (f s)
  | .fault r => .fault r
  | .refused r => .refused r

/-- Instructions executed one after another. -/
def execAll : List Instr → State → Host.Outcome State Fault Refusal
  | [], s => .next s
  | i :: is, s =>
    match exec i s with
    | .next t => execAll is t
    | .fault r => .fault r
    | .refused r => .refused r

/-! ## The decoder over a stream of bytes (30_encoding.md R93) -/

/-- What feeding bytes one at a time does: the record at the end, the result of each byte, the events in order. -/
structure Fed where
  dec : Dec
  outs : List (Option Packet)
  events : List Event
  deriving DecidableEq, Repr

def feedBytes (mode : HuntMode) (d : Dec) : List Byte → Fed
  | [] => ⟨d, [], []⟩
  | r :: rs =>
    let more := feedBytes mode (decStep mode d r).dec rs
    ⟨more.dec, (decStep mode d r).out :: more.outs, (decStep mode d r).event.toList ++ more.events⟩

/-- The packets among results of the decoder, in order. -/
def packetsIn (results : List Result) : List Packet :=
  results.filterMap fun r =>
    match r with
    | .packet out => out
    | .unit => none
    | .byte _ => none
    | .bool _ => none

/-- DEC_POLL while bytes remain on the channel, at most n times. -/
def pollWhile (mode : HuntMode) : Nat → State → State
  | 0, s => s
  | n + 1, s => if s.chan.rx = [] then s else pollWhile mode n (s.poll mode)

/-- Chunks that arrive one after another, each followed by DEC_POLL while bytes remain. -/
def pollChunks (mode : HuntMode) : List (List Byte) → State → State
  | [], s => s
  | c :: cs, s =>
    pollChunks mode cs (pollWhile mode c.length (s.withChan { s.chan with rx := s.chan.rx ++ c }))

/-- The wire bytes that carry one field value, with the value's own byte (the last of them) replaced. -/
def tamperedField (b flipped : Byte) : List Byte := (esc b).dropLast ++ [flipped]

/-- One bit of a wire byte flipped. -/
def flipBit (b : Byte) (k : Fin 8) : Byte := b ^^^ BitVec.twoPow 8 k.val

/-! ## An operation on the line -/

/-- What the peripherals see of a session: the select line low, the bytes sent each with its answer, the select line
high. -/
def sessionSeen (slot : Fin 2) (sent answers : List Byte) : List LineItem :=
  [.select slot false] ++ List.zipWith (fun c b => .exchange (shiftCycles c b)) sent answers ++ [.select slot true]

/-- The response to the k-th transfer from here, counting from 1. -/
def Device.response (d : Device) (k : Nat) : Byte := d.answerAt (k - 1)

/-- The responses to the first n transfers from here. -/
def Device.responses (d : Device) (n : Nat) : List Byte := (List.range n).map d.answerAt

/-- What an operation in progress returns when the response b to its next transfer ends it, or none when it goes on: the
absent-device check at 2 (43_peripheral_operations.md R194), the first acknowledge byte of a read (R195), the pad's
signature (R205, R206), and the last transfer of each path (R197, R199, R203, R204, R208). -/
def OpRun.resultOn (r : OpRun) (b : Byte) : Option Bool :=
  match r.kind with
  | .mcRead =>
    if r.k = 2 ∧ b = 0xFF ∨ r.k = 7 ∧ b ≠ 0x5C then some false
    else if r.k = 140 then some (b = 0x47 ∧ r.chk = r.rx)
    else none
  | .mcProbe => if r.k = 2 ∧ b = 0xFF then some false else if r.k = 4 then some (r.id0 = 0x5A) else none
  | .mcWrite => if r.k = 2 ∧ b = 0xFF then some false else if r.k = 138 then some (b = 0x47) else none
  | .padPoll =>
    if r.k = 4 ∧ ¬(r.id0 = 0x41 ∧ b = 0x5A) then some false else if r.k = 6 then some true else none

/-- The device event of an operation that ends with false on the response b (60_exceptions.md R232, R236). -/
def OpRun.failureOn (r : OpRun) (b : Byte) : Event :=
  match r.kind with
  | .mcRead =>
    if r.k = 2 then .devAbsent else if r.k = 7 then .badAck1 else if b ≠ 0x47 then .badStatus else .badChecksum
  | .mcProbe => .devAbsent
  | .mcWrite => if r.k = 2 then .devAbsent else .badStatus
  | .padPoll => .padId

/-- The operation at its next transfer, after c was sent and b came back: the first ID byte of a probe and a poll (R199,
R204), the checksum of a read from its responses (R196) and of a write from its sent bytes (R202), and the checksum a read
received (R193). -/
def OpRun.carriedOn (r : OpRun) (c b : Byte) : OpRun where
  kind := r.kind
  sector := r.sector
  k := r.k + 1
  id0 := if (r.kind = .mcProbe ∨ r.kind = .padPoll) ∧ r.k = 3 then b else r.id0
  chk :=
    match r.kind with
    | .mcRead => if r.k = 9 then b else if 10 ≤ r.k ∧ r.k ≤ 138 then r.chk ^^^ b else r.chk
    | .mcWrite => if r.k = 5 then c else if 6 ≤ r.k ∧ r.k ≤ 134 then r.chk ^^^ c else r.chk
    | .mcProbe => r.chk
    | .padPoll => r.chk
  rx := if r.kind = .mcRead ∧ r.k = 139 then b else r.rx

/-- The transfers at which an operation sends each byte code (30_encoding.md R81, R82, R85). -/
def OpRun.dueCode (r : OpRun) (i : Instr) : Prop :=
  i = .selPad ∧ r.kind = .padPoll ∧ r.k = 1 ∨
    i = .selMc ∧ r.kind ≠ .padPoll ∧ r.k = 1 ∨
    i = .cmdReadR ∧ (r.kind = .mcRead ∨ r.kind = .mcProbe) ∧ r.k = 2 ∨
    i = .cmdWriteW ∧ r.kind = .mcWrite ∧ r.k = 2 ∨
    i = .cmdPollB ∧ r.kind = .padPoll ∧ r.k = 2 ∨
    i = .filler ∧ 3 ≤ r.k ∧
      (r.kind = .mcProbe ∨ r.kind = .padPoll ∨ r.kind = .mcRead ∧ r.k ≠ 5 ∧ r.k ≠ 6 ∨
        r.kind = .mcWrite ∧ (r.k ≤ 4 ∨ 136 ≤ r.k))

/-- The events that are not about time. -/
def untimedEvents (events : List Event) : List Event := events.filter (· ≠ .ackTimeout)

/-! ## Time -/

/-- The state without what ACK edges may change (42_psx_bus_controller.md R169): B.ack, B.compat, B.now, the schedule of
edges to come, and the timing events. -/
def State.untimed (s : State) : State :=
  { s with
    bus := { s.bus with ack := false, compat := false, now := 0 }
    dev := { s.dev with ackEdges := [] }
    events := untimedEvents s.events }

/-- No ACK edge in the first n accesses. -/
def quiet (edges : List Bool) (n : Nat) : Prop := ∀ k < n, edges[k]?.getD false = false

/-- The first ACK edge comes before access number j. -/
def firstEdgeAt (edges : List Bool) (j : Nat) : Prop := quiet edges j ∧ edges[j]? = some true

end Sys2Proof.Machine
end

