-- ==== Sys2Proof/Certificates/Slice0/Obligations.lean ====
section
/-! DEFINITION. The statements for the provers. Each one's docstring names the rules of spec/ it formalises. -/

open Sys2Proof Sys2Proof.Machine

/-! ## Encodings -/

/-- Every well-formed instruction is read back from its bytes, with the bytes behind it left over; a wire byte under
the pending-escape flag of its class (30_encoding.md R78, R90). The layout of operand bytes is the model's (log 1). -/
def Obligations.DecodeReadsBackEncode : Prop :=
  ∀ (i : Instr) (pending : Bool) (rest : List Byte), i.wf = true →
    (i.port = .wire → i = .sync ∨ pending = i.escContext) →
    decode i.port pending (encode i ++ rest) = .ok i rest

/-- Words written out from R70, R78, R81 to R83, R90 and R205 decode to the instructions they stand for. -/
def Obligations.WrittenWordsDecode : Prop :=
  decode .enc false [0x10, 0x01, 0x00, 0x01, 0x10] = .ok (.encSend 0x01 [0x10]) [] ∧
  decode .dec false [0x20, 0xE0] = .ok (.decFeed 0xE0) [] ∧
  decode .dec false [0x21] = .ok .decPoll [] ∧
  decode .bus false [0x31, 0x81, 0, 0, 0, 50, 0, 0, 1, 0] = .ok (.busXfer 0x81 50 256) [] ∧
  decode .bus false [0x40, 0x01, 0x03, 0xFF] = .ok (.mcRead 1 1023) [] ∧
  decode .wire true [0xD0] = .ok (.escapedData 0xD0) [] ∧
  decode .wire false [0xD0] = .ok .escape [] ∧
  decode .wire true [0xE0] = .ok .sync [] ∧
  decode .lineOut false [0x42] = .ok .cmdPollB [] ∧
  decode .mcIn false [0x5A] = .ok .mcId0 [] ∧
  decode .padIn false [0x5A] = .ok .padId1 []

/-- R91: a code that R90 does not list for the block it is presented to is refused with REF_UNDEFINED_CMD, however it is
presented (R236: this check comes first). -/
def Obligations.UnlistedCodesAreRefused : Prop :=
  ∀ (s : State) (mode : Mode) (port : Port) (code : Byte) (bytes : List Byte) (q : List Input),
    s.inputs = .request mode port (code :: bytes) :: q →
    (port = .enc ∧ code ∉ [0x10] ∨ port = .dec ∧ code ∉ [0x20, 0x21, 0x23] ∨
      port = .bus ∧ code ∉ [0x30, 0x31, 0x32, 0x40, 0x41, 0x42, 0x43]) →
    step s = .refused (.undefinedCmd code)

/-- A step runs the instruction that the presented bytes begin with, on the state whose next input is what is behind
it. That the bytes behind an instruction are presented next is the model's choice (log 25). -/
def Obligations.StepRunsDecodedInstruction : Prop :=
  ∀ (s : State) (port : Port) (bytes rest : List Byte) (q : List Input) (i : Instr),
    s.inputs = .request .whole port bytes :: q → decode port s.dec.esc bytes = .ok i rest →
    step s = exec i { s with inputs := if rest = [] then q else .request .whole port rest :: q }

/-- R234, R265: a command that overlaps another command of its block is refused with REF_BUSY, and so is every command
of the bus controller while an operation is in progress. -/
def Obligations.BusyBlockRefuses : Prop :=
  (∀ (s : State) (port : Port) (bytes rest : List Byte) (q : List Input) (i : Instr),
    s.inputs = .request .overlapping port bytes :: q → decode port s.dec.esc bytes = .ok i rest →
    step s = .refused .busy) ∧
  ∀ (s : State) (i : Instr), i.port = .bus → s.bus.op.isSome = true → exec i s = .refused .busy

/-! ## packet_encoder -/

/-- R73, R101: the escape code. -/
def Obligations.EscapeCode : Prop :=
  esc 0xE0 = [0xD0, 0xDF] ∧ esc 0xD0 = [0xD0, 0xCF] ∧ ∀ b : Byte, b ≠ 0xE0 → b ≠ 0xD0 → esc b = [b]

/-- R100: the checksum is the node number plus the payload bytes, as natural numbers, mod 256. -/
def Obligations.ChecksumIsSumMod256 : Prop :=
  ∀ (n : Byte) (payload : List Byte),
    (checksum n payload).toNat = (n.toNat + (payload.map BitVec.toNat).sum) % 256

/-- R102, R103: an admitted ENC_SEND completes; it writes the frame in the order of R70 and flushes once; nothing else
of the state changes but the result. REF_NODE is checked first, then REF_LEN (R104, R105). -/
def Obligations.EncSendWritesFrame : Prop :=
  ∀ (s : State) (n : Byte) (payload : List Byte), (Instr.encSend n payload).opcode = 0x10 ∧
    ((n ≤ 31 ∨ n = 0xFF) → payload.length ≤ 254 →
      exec (.encSend n payload) s = .next { s with
        chan := { s.chan with tx := s.chan.tx ++ (0xE0 :: (esc n ++ esc (BitVec.ofNat 8 payload.length) ++
          payload.flatMap esc ++ esc (checksum n payload))).map .byte ++ [.flush] }
        results := s.results ++ [.unit] }) ∧
    (¬(n ≤ 31 ∨ n = 0xFF) → exec (.encSend n payload) s = .refused .node) ∧
    ((n ≤ 31 ∨ n = 0xFF) → 254 < payload.length → exec (.encSend n payload) s = .refused .len)

/-- R76: in the frame of an admitted packet 0xE0 stands at the first place and nowhere else, and 0xD0 only before 0xDF or
0xCF, as the first byte of an escaped pair. -/
def Obligations.FrameMarkersAreUnique : Prop :=
  ∀ (n : Byte) (payload : List Byte), (n ≤ 31 ∨ n = 0xFF) → payload.length ≤ 254 →
    ∃ tail, frame n payload = 0xE0 :: tail ∧ 0xE0 ∉ tail ∧
      ∀ k : Nat, tail[k]? = some 0xD0 → tail[k + 1]? = some 0xDF ∨ tail[k + 1]? = some 0xCF

/-- R75, R108: a frame has 4 + n + e bytes, e the number of its escaped fields, and at least 4 and at most 513. -/
def Obligations.FrameSize : Prop :=
  ∀ (n : Byte) (payload : List Byte), (n ≤ 31 ∨ n = 0xFF) → payload.length ≤ 254 →
    (frame n payload).length = 4 + payload.length +
      ([n, BitVec.ofNat 8 payload.length] ++ payload ++ [checksum n payload]).countP
        (fun b => b == 0xE0 || b == 0xD0) ∧
    4 ≤ (frame n payload).length ∧ (frame n payload).length ≤ 513

/-! ## packet_decoder -/

/-- R132: DEC_FEED completes on every byte in every state: it runs dec_step once, returns its packet or none, and changes
nothing else. Overlapping another command it is refused. The four wire classes are the same on their own byte (R78): that
they stand by themselves so is the model's reading (log 21), and so is what a class does outside its condition (log 8). -/
def Obligations.FeedRunsOneDecStep : Prop :=
  (∀ (s : State) (b : Byte) (q : List Input), (Instr.decFeed b).opcode = 0x20 ∧
    (s.inputs = .request .overlapping .dec [0x20, b] :: q → step s = .refused .busy)) ∧
  ∀ (s : State) (b : Byte) (i : Instr),
    (i = .decFeed b ∨ i = .sync ∧ b = 0xE0 ∨ i = .escape ∧ b = 0xD0 ∨ i = .escapedData b ∨ i = .data b) →
    exec i s = .next { s with
      dec := (decStep Config.huntMode s.dec b).dec
      results := s.results ++ [.packet (decStep Config.huntMode s.dec b).out]
      events := s.events ++ (decStep Config.huntMode s.dec b).event.toList }

/-- R121: 0xE0 starts a fresh packet in every state, under both hunt modes, and discards a pending escape. -/
def Obligations.SyncStartsFreshPacket : Prop :=
  ∀ (mode : HuntMode) (d : Dec),
    decStep mode d 0xE0 = ⟨{ d with phase := .waitSync, esc := false, count := 0, payload := [], armed := true }, none,
      if d.phase = .waitSync then none else some (.frameAbandoned d.phase)⟩

/-- R125, R30: under STRICT, unarmed in WaitSync, every byte but 0xE0 is ignored; under LITERAL the armed flag has no
effect. -/
def Obligations.StrictHuntIgnoresBytes : Prop :=
  (∀ (d : Dec) (r : Byte), d.phase = .waitSync → d.armed = false → r ≠ 0xE0 →
    decStep .strict d r = ⟨d, none, none⟩) ∧
  ∀ (d : Dec) (r : Byte), (decStep .literal { d with armed := true } r).out = (decStep .literal d r).out ∧
    (decStep .literal { d with armed := true } r).event = (decStep .literal d r).event ∧
    { (decStep .literal { d with armed := true } r).dec with armed := false } =
      { (decStep .literal d r).dec with armed := false }

/-- R122: 0xD0 with no escape pending sets the pending-escape flag and changes nothing else. -/
def Obligations.EscapeMarkerIsPending : Prop :=
  ∀ (mode : HuntMode) (d : Dec), (d.phase ≠ .waitSync ∨ d.armed = true ∨ mode = .literal) → d.esc = false →
    decStep mode d 0xD0 = ⟨{ d with esc := true }, none, none⟩

/-- R123, R124: in WaitSync the unescaped value is the address: the local node number or broadcast opens the frame, any
other value drops it. -/
def Obligations.AddressFilter : Prop :=
  ∀ (mode : HuntMode) (d : Dec) (r : Byte), d.phase = .waitSync → (d.armed = true ∨ mode = .literal) → r ≠ 0xE0 →
    ¬(d.esc = false ∧ r = 0xD0) → ∀ v, v = (if d.esc then r + 1 else r) →
    ((v = d.localNode ∨ v = 0xFF) →
      decStep mode d r = ⟨{ d with esc := false, node := v, phase := .gotAddress }, none, none⟩) ∧
    (¬(v = d.localNode ∨ v = 0xFF) →
      decStep mode d r = ⟨{ d with phase := .waitSync, esc := false, count := 0, payload := [], armed := false }, none,
        some (.addrMismatch v)⟩)

/-- R123, R126: the length byte: 255 drops the frame, 0 goes straight to the checksum, any other value to the payload. -/
def Obligations.LengthField : Prop :=
  ∀ (mode : HuntMode) (d : Dec) (r : Byte), d.phase = .gotAddress → r ≠ 0xE0 → ¬(d.esc = false ∧ r = 0xD0) →
    ∀ v, v = (if d.esc then r + 1 else r) →
    (v = 255 →
      decStep mode d r = ⟨{ d with phase := .waitSync, esc := false, count := 0, payload := [], armed := false }, none,
        some .badLength⟩) ∧
    (v = 0 →
      decStep mode d r = ⟨{ d with esc := false, len := 0, count := 0, payload := [], phase := .receivedAll }, none, none⟩) ∧
    (v ≠ 0 → v ≠ 255 →
      decStep mode d r = ⟨{ d with esc := false, len := v, count := 0, payload := [], phase := .receivingData }, none,
        none⟩)

/-- R123, R127: a payload byte is appended and counted, and the last one leads to the checksum. From a consistent state
the count never exceeds the length, and the payload never holds more than 254 bytes. -/
def Obligations.PayloadByte : Prop :=
  ∀ (mode : HuntMode) (d : Dec) (r : Byte), d.phase = .receivingData → r ≠ 0xE0 → ¬(d.esc = false ∧ r = 0xD0) →
    decStep mode d r = ⟨{ d with
      esc := false
      payload := d.payload ++ [if d.esc then r + 1 else r]
      count := d.count + 1
      phase := if d.count + 1 = d.len then .receivedAll else .receivingData }, none, none⟩ ∧
    (d.Inv → (decStep mode d r).dec.count ≤ (decStep mode d r).dec.len ∧
      (decStep mode d r).dec.len ≤ 254 ∧ (decStep mode d r).dec.payload.length ≤ 254)

/-- R123, R128, R129: a matching checksum byte emits the packet, any other drops it; the parser is fresh and unarmed
either way. -/
def Obligations.ChecksumByte : Prop :=
  ∀ (mode : HuntMode) (d : Dec) (r : Byte), d.phase = .receivedAll → r ≠ 0xE0 → ¬(d.esc = false ∧ r = 0xD0) →
    ∀ v, v = (if d.esc then r + 1 else r) →
    (decStep mode d r).dec = { d with phase := .waitSync, esc := false, count := 0, payload := [], armed := false } ∧
    (v = checksum d.node d.payload → (decStep mode d r).out = some ⟨d.node, d.payload, v⟩ ∧
      (decStep mode d r).event = some (.packet ⟨d.node, d.payload, v⟩)) ∧
    (v ≠ checksum d.node d.payload → (decStep mode d r).out = none ∧
      (decStep mode d r).event = some (.checksum v (checksum d.node d.payload)))

/-- R129, R23: from a consistent state, an emitted packet is valid, and it is the in-progress packet with its length
field's number of payload bytes and the unescaped checksum byte. -/
def Obligations.EmittedPacketsAreValid : Prop :=
  ∀ (mode : HuntMode) (d : Dec) (r : Byte) (p : Packet), d.Inv → (decStep mode d r).out = some p →
    p.checksum = checksum p.nodeNo p.payload ∧ p.nodeNo = d.node ∧ p.payload = d.payload ∧
    p.payload.length = d.len.toNat ∧ p.checksum = (if d.esc then r + 1 else r) ∧
    (p.nodeNo ≤ 31 ∨ p.nodeNo = 0xFF)

/-- R133: DEC_POLL completes: it consumes the oldest bytes of the channel one dec_step each, up to the first packet or to
the end of what the channel holds, and returns that packet or none. Nothing else changes. Overlapping another command it
is refused. -/
def Obligations.PollConsumesUpToFirstPacket : Prop :=
  Instr.decPoll.opcode = 0x21 ∧
  (∀ (s : State) (q : List Input), s.inputs = .request .overlapping .dec [0x21] :: q → step s = .refused .busy) ∧
  ∀ s : State, ∃ (used rest : List Byte) (out : Option Packet),
    s.chan.rx = used ++ rest ∧
    exec .decPoll s = .next { s with
      dec := (feedBytes Config.huntMode s.dec used).dec
      chan := { s.chan with rx := rest }
      results := s.results ++ [.packet out]
      events := s.events ++ (feedBytes Config.huntMode s.dec used).events } ∧
    (out = none → rest = [] ∧ ∀ o ∈ (feedBytes Config.huntMode s.dec used).outs, o = none) ∧
    (∀ p, out = some p →
      (feedBytes Config.huntMode s.dec used).outs = List.replicate (used.length - 1) none ++ [some p])

/-- R136: however a stream is cut into chunks, polling gives the packets, the events and the decoder's record that feeding
it byte by byte gives, and leaves no byte. -/
def Obligations.ChunkingDoesNotMatter : Prop :=
  ∀ (mode : HuntMode) (s : State) (chunks : List (List Byte)), s.chan.rx = [] →
    packetsIn (pollChunks mode chunks s).results =
      packetsIn s.results ++ (feedBytes mode s.dec chunks.flatten).outs.filterMap id ∧
    (pollChunks mode chunks s).dec = (feedBytes mode s.dec chunks.flatten).dec ∧
    (pollChunks mode chunks s).events = s.events ++ (feedBytes mode s.dec chunks.flatten).events ∧
    (pollChunks mode chunks s).chan.rx = []

/-- R137: from any decoder state and under both hunt modes, the frame of a packet for the local node or for broadcast
gives that packet at its last byte and none before, and leaves the parser fresh and unarmed. -/
def Obligations.FrameRoundTrip : Prop :=
  ∀ (mode : HuntMode) (d : Dec) (n : Byte) (payload : List Byte), (n = d.localNode ∨ n = 0xFF) →
    payload.length ≤ 254 →
    (feedBytes mode d (frame n payload)).outs =
      List.replicate ((frame n payload).length - 1) none ++ [some ⟨n, payload, checksum n payload⟩] ∧
    (feedBytes mode d (frame n payload)).dec.phase = .waitSync ∧
    (feedBytes mode d (frame n payload)).dec.esc = false ∧
    (feedBytes mode d (frame n payload)).dec.armed = false

/-- R139 under STRICT: a frame for another node gives no packet. -/
def Obligations.StrictDropsOtherNodes : Prop :=
  ∀ (d : Dec) (n : Byte) (payload : List Byte), (n ≤ 31 ∨ n = 0xFF) → n ≠ d.localNode → n ≠ 0xFF →
    payload.length ≤ 254 → ∀ o ∈ (feedBytes .strict d (frame n payload)).outs, o = none

/-- R137's last sentence, and R139, read under LITERAL: 'When n is neither D.localNode nor 0xFF, no packet is emitted.'
Expected to FAIL: after the address mismatch R124 takes each later byte of the frame as an address candidate, so a
payload that holds a frame of its own is parsed as one (log 13). -/
def Obligations.LiteralDropsOtherNodes : Prop :=
  ∀ (d : Dec) (n : Byte) (payload : List Byte), d.localNode ≤ 31 → (n ≤ 31 ∨ n = 0xFF) → n ≠ d.localNode → n ≠ 0xFF →
    payload.length ≤ 254 → ∀ o ∈ (feedBytes .literal d (frame n payload)).outs, o = none

/-- R139: after any bytes whatever, a frame for the local node or for broadcast is decoded: what was dropped leaves
nothing behind. -/
def Obligations.DroppedBytesLeaveNothing : Prop :=
  ∀ (mode : HuntMode) (d : Dec) (before : List Byte) (n : Byte) (payload : List Byte),
    (n = d.localNode ∨ n = 0xFF) → payload.length ≤ 254 →
    (feedBytes mode d (before ++ frame n payload)).outs.getLast? =
      some (some ⟨n, payload, checksum n payload⟩)

/-- R138: one bit of the byte that carries a payload value or the checksum flipped, in a frame for an accepted node, to
neither 0xE0 nor 0xD0: no packet. The byte that carries an escaped value is the second of its pair. -/
def Obligations.TamperedFramesGiveNoPacket : Prop :=
  ∀ (mode : HuntMode) (d : Dec) (n wire : Byte) (k : Fin 8), (n = d.localNode ∨ n = 0xFF) → wire ≠ 0xE0 → wire ≠ 0xD0 →
    (∀ (b : Byte) (front back : List Byte), (front ++ [b] ++ back).length ≤ 254 →
      wire = flipBit ((esc b).getLastD 0) k →
      ∀ o ∈ (feedBytes mode d ([0xE0] ++ esc n ++ esc (lengthField (front ++ [b] ++ back)) ++ front.flatMap esc ++
        tamperedField b wire ++ back.flatMap esc ++ esc (checksum n (front ++ [b] ++ back)))).outs, o = none) ∧
    (∀ payload : List Byte, payload.length ≤ 254 → wire = flipBit ((esc (checksum n payload)).getLastD 0) k →
      ∀ o ∈ (feedBytes mode d ([0xE0] ++ esc n ++ esc (lengthField payload) ++ payload.flatMap esc ++
        tamperedField (checksum n payload) wire)).outs, o = none)

/-- R140: the escaped form of any value that needs no escaping is accepted as that value. 0xE1 has no escaped form: the
byte behind the marker would be a SYNC. -/
def Obligations.NonCanonicalEscapesAreAccepted : Prop :=
  ∀ (mode : HuntMode) (d : Dec) (v : Byte), (d.phase ≠ .waitSync ∨ d.armed = true ∨ mode = .literal) → d.esc = false →
    v ≠ 0xE0 → v ≠ 0xD0 → v ≠ 0xE1 →
    (feedBytes mode d [0xD0, v - 1]).dec = (feedBytes mode d [v]).dec ∧
    (feedBytes mode d [0xD0, v - 1]).outs = none :: (feedBytes mode d [v]).outs

/-- R135: DEC_SET_NODE of 0 to 31 completes and writes the local node number only; any other value, 0xFF too, is refused
with REF_NODE. Overlapping another command it is refused. -/
def Obligations.SetNodeWritesLocalNode : Prop :=
  ∀ (s : State) (node : Byte), (Instr.decSetNode node).opcode = 0x23 ∧
    (∀ q, s.inputs = .request .overlapping .dec [0x23, node] :: q → step s = .refused .busy) ∧
    (node ≤ 31 → exec (.decSetNode node) s = .next { s with
      dec := { s.dec with localNode := node }
      results := s.results ++ [.unit] }) ∧
    (31 < node → exec (.decSetNode node) s = .refused .node)

/-- R31, R131: no instruction but DEC_SET_NODE changes the local node number. -/
def Obligations.OnlySetNodeChangesLocalNode : Prop :=
  ∀ (i : Instr) (s t : State), exec i s = .next t → (∀ node, i ≠ .decSetNode node) →
    t.dec.localNode = s.dec.localNode

/-! ## psx_bus_controller: sessions -/

/-- R162: BUS_BEGIN on slot 0 or 1 with no session open completes: compatibility mode off, the session open, the slot's
select line low, and nothing else. Its refusals come in order, after REF_BUSY (R236). -/
def Obligations.BusBeginOpensSession : Prop :=
  ∀ (s : State) (slot : Byte), s.bus.op = none → (Instr.busBegin slot).opcode = 0x30 ∧
    (∀ n : Fin 2, slot.toNat = n.val → s.bus.session = none →
      exec (.busBegin slot) s = .next { s with
        bus := { s.bus with compat := false, session := some n, sel := s.bus.sel.set n false }
        dev := { s.dev with seen := s.dev.seen ++ [.select n false] }
        results := s.results ++ [.unit] }) ∧
    (1 < slot → exec (.busBegin slot) s = .refused .slot) ∧
    (slot ≤ 1 → s.bus.session.isSome = true → exec (.busBegin slot) s = .refused .sessionOpen)

/-- R168: BUS_END in a session completes: the slot's select line high, the session closed, B.compat kept, and nothing
else. Without a session it is refused. -/
def Obligations.BusEndClosesSession : Prop :=
  ∀ s : State, s.bus.op = none → Instr.busEnd.opcode = 0x32 ∧
    (∀ n : Fin 2, s.bus.session = some n →
      exec .busEnd s = .next { s with
        bus := { s.bus with session := none, sel := s.bus.sel.set n true }
        dev := { s.dev with seen := s.dev.seen ++ [.select n true] }
        results := s.results ++ [.unit] }) ∧
    (s.bus.session = none → exec .busEnd s = .refused .noSession)

/-! ## psx_bus_controller: the transfer -/

/-- R45, R160: an exchange has eight cycles, bit k of both bytes in cycle k, and the byte received is the peripheral's. -/
def Obligations.ExchangeIsLsbFirst : Prop :=
  ∀ c b : Byte, (shiftCycles c b).length = 8 ∧
    (∀ k : Fin 8, (shiftCycles c b)[k.val]? = some ⟨c.getLsbD k.val, b.getLsbD k.val⟩) ∧
    cyclesReceived (shiftCycles c b) = b ∧ cyclesSent (shiftCycles c b) = c

/-- R165: without an edge the wait takes T microseconds and T + 1 reads and answers false; with the first edge before read
j, at most T, it takes j microseconds and j + 1 reads and answers true; a flag already set is seen at the first read. -/
def Obligations.AckWaitDuration : Prop :=
  ∀ (T : Nat) (w : AckView),
    (w.ack = false → quiet w.edges (T + 1) →
      ackWait T w = (false, ⟨false, w.edges.drop (T + 1), w.now + T⟩)) ∧
    (∀ j ≤ T, w.ack = false → firstEdgeAt w.edges j →
      ackWait T w = (true, ⟨true, w.edges.drop (j + 1), w.now + j⟩)) ∧
    (w.ack = true → ackWait T w = (true, ⟨true, w.edges.tail, w.now⟩))

/-- R163: BUS_XFER in a session completes, whatever its operands and whether or not an ACK comes: it returns the
peripheral's response to its one exchange; the session, the select lines, the decoder, the channel and the buffers keep
their values. Without a session it is refused. -/
def Obligations.BusXferReturnsResponse : Prop :=
  ∀ (s : State) (cmd : Byte) (timeout predelay : U32), s.bus.op = none →
    (s.bus.session.isSome = true → ∃ t, exec (.busXfer cmd timeout predelay) s = .next t ∧
      t.results = s.results ++ [.byte (s.dev.response 1)] ∧
      t.dev.seen = s.dev.seen ++ [.exchange (shiftCycles cmd (s.dev.response 1))] ∧
      t.dev.answers = s.dev.answers.tail ∧ t.dev.drawn = s.dev.drawn + 1 ∧
      t.bus.session = s.bus.session ∧ t.bus.sel = s.bus.sel ∧ t.bus.op = none ∧
      t.dec = s.dec ∧ t.chan = s.chan ∧ t.bufs = s.bufs ∧ t.inputs = s.inputs) ∧
    (s.bus.session = none → exec (.busXfer cmd timeout predelay) s = .refused .noSession)

/-- R163 to R166, R170: what the ACK edges do in a BUS_XFER. The schedule's first entry comes before AckClear and is
erased; the entries behind it come before the reads of the wait, whose bound T is 3000 in ACK-tracking mode and the
caller's timeout in compatibility mode. -/
def Obligations.BusXferTiming : Prop :=
  ∀ (s t : State) (cmd : Byte) (timeout predelay : U32),
    exec (.busXfer cmd timeout predelay) s = .next t →
    ∀ T, T = (if s.bus.compat then timeout.toNat else 3000) →
    (quiet s.dev.ackEdges.tail (T + 1) →
      t.bus.compat = true ∧ t.bus.ack = false ∧ t.bus.now = s.bus.now + predelay.toNat + Config.tXchgUs + T ∧
      t.dev.ackEdges = s.dev.ackEdges.drop (T + 2) ∧
      t.events = s.events ++ (if s.bus.compat then [] else [.ackTimeout])) ∧
    (∀ j ≤ T, firstEdgeAt s.dev.ackEdges.tail j →
      t.bus.compat = s.bus.compat ∧ t.bus.ack = true ∧
      t.bus.now = s.bus.now + predelay.toNat + Config.tXchgUs + j ∧
      t.dev.ackEdges = s.dev.ackEdges.drop (j + 2) ∧ t.events = s.events)

/-- R167: compatibility mode outlives every instruction but those that begin a session. -/
def Obligations.CompatIsSticky : Prop :=
  ∀ (i : Instr) (s t : State), exec i s = .next t → s.bus.compat = true →
    (∀ slot, i ≠ .busBegin slot ∧ i ≠ .padPoll slot) →
    (∀ slot sector, i ≠ .mcRead slot sector ∧ i ≠ .mcProbe slot sector ∧ i ≠ .mcWrite slot sector) →
    t.bus.compat = true

/-- R171, R170: with no ACK edge at all, the first transfer of a session waits 3000 and turns compatibility mode on, and
every later one waits its own timeout. -/
def Obligations.FallbackWithoutAck : Prop :=
  ∀ (s : State) (cmd : Byte) (timeout predelay : U32) (more : List (Byte × U32 × U32)),
    s.bus.op = none → s.bus.session.isSome = true → s.bus.compat = false → s.dev.ackEdges = [] →
    ∃ t, execAll (.busXfer cmd timeout predelay :: more.map (fun m => .busXfer m.1 m.2.1 m.2.2)) s = .next t ∧
      t.bus.compat = true ∧
      t.bus.now = s.bus.now + (predelay.toNat + Config.tXchgUs + 3000) +
        (more.map (fun m => m.2.2.toNat + Config.tXchgUs + m.2.1.toNat)).sum

/-- R169: ACK timing changes no functional result: two states that differ in nothing but B.ack, B.compat, B.now, the edges
to come and the timing events have the same outcome, up to those same things, under every instruction and every step. -/
def Obligations.AckTimingIsUnobservable : Prop :=
  (∀ (i : Instr) (s s' : State), s.untimed = s'.untimed →
    seenThrough State.untimed (exec i s) = seenThrough State.untimed (exec i s')) ∧
  ∀ s s' : State, s.untimed = s'.untimed →
    seenThrough State.untimed (step s) = seenThrough State.untimed (step s')

/-- R161, R240: an edge of direction ACK_EDGE sets B.ack, an edge of the other direction leaves it, and neither changes
anything else. -/
def Obligations.AckEdgeSetsFlag : Prop :=
  ∀ (s : State) (e : Edge) (q : List Input), s.inputs = .ackEdge e :: q →
    (e = Config.ackEdge → step s = .next { s with bus := { s.bus with ack := true }, inputs := q }) ∧
    (e ≠ Config.ackEdge → step s = .next { s with inputs := q })

/-! ## psx_bus_controller: the peripheral operations -/

/-- R192, R200, R204, R236: the refusals of the operations, in their order. -/
def Obligations.OperationRefusals : Prop :=
  ∀ (s : State) (slot : Byte) (sector : U16) (i : Instr),
    (i = .mcRead slot sector ∨ i = .mcProbe slot sector ∨ i = .mcWrite slot sector ∨ i = .padPoll slot ∧ sector = 0) →
    s.bus.op = none →
    (1 < slot → exec i s = .refused .slot) ∧
    (slot ≤ 1 → 1023 < sector → exec i s = .refused .sector) ∧
    (slot ≤ 1 → sector ≤ 1023 → s.bus.session.isSome = true → exec i s = .refused .sessionOpen)

/-- R193 to R198, R208, R209: MC_READ completes from an idle bus: its result, Out, the bytes sent with their answers between
select low and select high, its transfers, its event, and everything it leaves unchanged. That writing Out leaves In and Pad
unchanged is the model's choice: no two roles share a buffer (log 22). -/
def Obligations.McReadReadsSector : Prop :=
  ∀ (s : State) (slot : Byte) (sector : U16) (n : Fin 2), s.bus.op = none → s.bus.session = none → slot.toNat = n.val →
    sector ≤ 1023 → (Instr.mcRead slot sector).opcode = 0x40 ∧
    ∃ t, exec (.mcRead slot sector) s = .next t ∧
      ∀ (r : Nat → Byte) (chk : Byte) (transfers : Nat), r = s.dev.response →
        chk = (List.range 128).foldl (fun c k => c ^^^ r (11 + k)) (r 9 ^^^ r 10) →
        transfers = (if r 2 = 0xFF then 2 else if r 7 ≠ 0x5C then 7 else 140) →
        t.results = s.results ++ [.bool (decide (transfers = 140 ∧ r 140 = 0x47 ∧ chk = r 139))] ∧
        (∀ k : Fin 128, t.bufs.outBuf[k] = if transfers = 140 then r (11 + k.val) else s.bufs.outBuf[k]) ∧
        t.bufs.inBuf = s.bufs.inBuf ∧ t.bufs.padBuf = s.bufs.padBuf ∧
        t.dev.seen = s.dev.seen ++ sessionSeen n
          (([0x81, 0x52, 0, 0, sector.extractLsb' 8 8, sector.extractLsb' 0 8] ++ List.replicate 134 0).take transfers)
          (s.dev.responses transfers) ∧
        t.dev.drawn = s.dev.drawn + transfers ∧
        untimedEvents t.events = untimedEvents s.events ++
          (if transfers = 2 then [.devAbsent] else if transfers = 7 then [.badAck1]
            else if r 140 ≠ 0x47 then [.badStatus] else if chk ≠ r 139 then [.badChecksum] else []) ∧
        t.bus.op = none ∧ t.bus.session = none ∧ t.bus.sel = s.bus.sel.set n true ∧
        t.dec = s.dec ∧ t.chan = s.chan ∧ t.inputs = s.inputs

/-- R199, R208, R209: MC_PROBE completes from an idle bus. It is true exactly when the response to 'R' is not 0xFF and the
first ID byte is 0x5A. -/
def Obligations.McProbeTestsFirstId : Prop :=
  ∀ (s : State) (slot : Byte) (sector : U16) (n : Fin 2), s.bus.op = none → s.bus.session = none → slot.toNat = n.val →
    sector ≤ 1023 → (Instr.mcProbe slot sector).opcode = 0x41 ∧
    ∃ t, exec (.mcProbe slot sector) s = .next t ∧
      ∀ (r : Nat → Byte) (transfers : Nat), r = s.dev.response → transfers = (if r 2 = 0xFF then 2 else 4) →
        t.results = s.results ++ [.bool (decide (r 2 ≠ 0xFF ∧ r 3 = 0x5A))] ∧
        t.dev.seen = s.dev.seen ++ sessionSeen n (([0x81, 0x52, 0, 0] : List Byte).take transfers) (s.dev.responses transfers) ∧
        t.dev.drawn = s.dev.drawn + transfers ∧
        untimedEvents t.events = untimedEvents s.events ++ (if r 2 ≠ 0xFF ∧ r 3 = 0x5A then [] else [.devAbsent]) ∧
        t.bus.op = none ∧ t.bus.session = none ∧ t.bus.sel = s.bus.sel.set n true ∧
        t.dec = s.dec ∧ t.chan = s.chan ∧ t.bufs = s.bufs ∧ t.inputs = s.inputs

/-- R201 to R203, R208, R209: MC_WRITE completes from an idle bus: the sector address, the 128 bytes of In and their XOR
with the address go out, and the result is the status test. -/
def Obligations.McWriteWritesSector : Prop :=
  ∀ (s : State) (slot : Byte) (sector : U16) (n : Fin 2), s.bus.op = none → s.bus.session = none → slot.toNat = n.val →
    sector ≤ 1023 → (Instr.mcWrite slot sector).opcode = 0x42 ∧
    ∃ t, exec (.mcWrite slot sector) s = .next t ∧
      ∀ (r : Nat → Byte) (hi lo : Byte) (transfers : Nat), r = s.dev.response → hi = sector.extractLsb' 8 8 →
        lo = sector.extractLsb' 0 8 → transfers = (if r 2 = 0xFF then 2 else 138) →
        t.results = s.results ++ [.bool (decide (r 2 ≠ 0xFF ∧ r 138 = 0x47))] ∧
        t.dev.seen = s.dev.seen ++ sessionSeen n
          (([0x81, 0x57, 0, 0, hi, lo] ++ s.bufs.inBuf.toList ++
            [s.bufs.inBuf.toList.foldl (· ^^^ ·) (hi ^^^ lo), 0, 0, 0]).take transfers)
          (s.dev.responses transfers) ∧
        t.dev.drawn = s.dev.drawn + transfers ∧
        untimedEvents t.events = untimedEvents s.events ++
          (if r 2 = 0xFF then [.devAbsent] else if r 138 = 0x47 then [] else [.badStatus]) ∧
        t.bus.op = none ∧ t.bus.session = none ∧ t.bus.sel = s.bus.sel.set n true ∧
        t.dec = s.dec ∧ t.chan = s.chan ∧ t.bufs = s.bufs ∧ t.inputs = s.inputs

/-- R204 to R206, R208, R209: PAD_POLL completes from an idle bus: on the signature it copies the two status bytes, else it
zeroes Pad and stops after four transfers. That writing Pad leaves Out and In unchanged is the model's choice: no two
roles share a buffer (log 22). -/
def Obligations.PadPollReadsButtons : Prop :=
  ∀ (s : State) (slot : Byte) (n : Fin 2), s.bus.op = none → s.bus.session = none → slot.toNat = n.val →
    (Instr.padPoll slot).opcode = 0x43 ∧
    ∃ t, exec (.padPoll slot) s = .next t ∧
      ∀ (r : Nat → Byte) (connected : Bool) (transfers : Nat), r = s.dev.response →
        connected = decide (r 3 = 0x41 ∧ r 4 = 0x5A) → transfers = (if connected then 6 else 4) →
        t.results = s.results ++ [.bool connected] ∧
        t.bufs.padBuf[0] = (if connected then r 5 else 0) ∧ t.bufs.padBuf[1] = (if connected then r 6 else 0) ∧
        t.bufs.outBuf = s.bufs.outBuf ∧ t.bufs.inBuf = s.bufs.inBuf ∧
        t.dev.seen = s.dev.seen ++ sessionSeen n (([0x01, 0x42, 0, 0, 0, 0] : List Byte).take transfers)
          (s.dev.responses transfers) ∧
        t.dev.drawn = s.dev.drawn + transfers ∧
        untimedEvents t.events = untimedEvents s.events ++ (if connected then [] else [.padId]) ∧
        t.bus.op = none ∧ t.bus.session = none ∧ t.bus.sel = s.bus.sel.set n true ∧
        t.dec = s.dec ∧ t.chan = s.chan ∧ t.inputs = s.inputs

/-- R274: the time of an operation against a peripheral that never gives an ACK: 3000 for the first transfer's wait, the
caller's timeout for each later one, and every pre-delay and exchange; compatibility mode is on at the end. -/
def Obligations.OperationTimeWithoutAck : Prop :=
  ∀ (p : BusParams) (kind : OpKind) (slot : Byte) (sector : U16) (s t : State), s.dev.ackEdges = [] →
    operate p kind slot sector s = .next t →
    ∃ n, t.dev.drawn = s.dev.drawn + n ∧ 1 ≤ n ∧ n ≤ 140 ∧ t.bus.compat = true ∧
      t.bus.now = s.bus.now + 3000 +
        ((List.range n).map (fun k => (kind.timing p (k + 1)).predelay.toNat + p.tXchg)).sum +
        ((List.range (n - 1)).map (fun k => (kind.timing p (k + 2)).timeout.toNat)).sum

/-- R58, R62: an operation run transfer by transfer, with nothing else between its transfers, ends in the state in which
the whole command ends; a turn with no operation in progress changes nothing. -/
def Obligations.TurnwiseEqualsWhole : Prop :=
  ∀ (s t : State) (bytes : List Byte) (i : Instr), decode .bus false bytes = .ok i [] →
    exec i { s with inputs := [] } = .next t →
    core.run 141 { s with inputs := .request .turnwise .bus bytes :: List.replicate 140 .busTurn } = .next t

/-- R267: the caller must not change a buffer while an operation runs; it may at any other time. The refusal is
the model's own (log 11), and that a change of one buffer leaves the others is its choice too (log 22). -/
def Obligations.BuffersAreStableDuringOperation : Prop :=
  ∀ (s : State) (q : List Input) (o w : Vector Byte 128) (v : Vector Byte 2),
    (s.bus.op.isSome = true →
      (s.inputs = .setOut o :: q ∨ s.inputs = .setIn w :: q ∨ s.inputs = .setPad v :: q) →
      step s = .refused .bufferInUse) ∧
    (s.bus.op = none →
      (s.inputs = .setOut o :: q → step s = .next { s with bufs := { s.bufs with outBuf := o }, inputs := q }) ∧
      (s.inputs = .setIn w :: q → step s = .next { s with bufs := { s.bufs with inBuf := w }, inputs := q }) ∧
      (s.inputs = .setPad v :: q → step s = .next { s with bufs := { s.bufs with padBuf := v }, inputs := q }))

/-! ## The byte codes of the peripheral bus -/

/-- R81, R82, R85 with R163: a byte code sent in a session outside an operation completes as one transfer of its byte, and
outside a session it is refused. That a byte code stands by itself so is the model's reading (log 9). -/
def Obligations.SentCodeIsOneTransfer : Prop :=
  ∀ (s : State) (i : Instr) (c : Byte),
    (i = .selPad ∧ c = 0x01 ∨ i = .selMc ∧ c = 0x81 ∨ i = .cmdReadR ∧ c = 0x52 ∨ i = .cmdWriteW ∧ c = 0x57 ∨
      i = .cmdPollB ∧ c = 0x42 ∨ i = .filler ∧ c = 0x00) →
    s.bus.op = none →
    (s.bus.session.isSome = true → ∃ t, exec i s = .next t ∧
      t.results = s.results ++ [.byte (s.dev.response 1)] ∧
      t.dev.seen = s.dev.seen ++ [.exchange (shiftCycles c (s.dev.response 1))] ∧
      t.bus.session = s.bus.session ∧ t.bus.sel = s.bus.sel ∧ t.bus.op = none ∧
      t.dec = s.dec ∧ t.chan = s.chan ∧ t.bufs = s.bufs ∧ t.inputs = s.inputs) ∧
    (s.bus.session = none → exec i s = .refused .noSession)

/-- R81, R82, R85, R191, R194: in an operation in progress a byte code that its next transfer does not send is refused with
REF_BUSY. Each byte code is what the transfers of its position send; one that the next transfer sends is that transfer,
whatever the response: one exchange, then the operation at its next transfer with its session open, or its end with its
result and its event. The buffers take what the transfer gives them. That a byte code stands by itself so is the model's
reading (log 9), and so is that a write to one role's buffer leaves the others (log 22). -/
def Obligations.SentCodeAtItsPosition : Prop :=
  ∀ (s : State) (i : Instr) (c : Byte) (r : OpRun), s.bus.op = some r →
    (i = .selPad ∧ c = 0x01 ∨ i = .selMc ∧ c = 0x81 ∨ i = .cmdReadR ∧ c = 0x52 ∨ i = .cmdWriteW ∧ c = 0x57 ∨
      i = .cmdPollB ∧ c = 0x42 ∨ i = .filler ∧ c = 0x00) →
    (r.sends s.bufs.inBuf ≠ c → exec i s = .refused .busy) ∧
    (r.dueCode i → r.sends s.bufs.inBuf = c) ∧
    ∀ n : Fin 2, s.bus.session = some n → 1 ≤ r.k → r.k ≤ r.kind.transfers → r.sends s.bufs.inBuf = c →
      ∃ t, exec i s = .next t ∧ ∀ b, b = s.dev.response 1 →
        t.dev.drawn = s.dev.drawn + 1 ∧ t.dec = s.dec ∧ t.chan = s.chan ∧ t.inputs = s.inputs ∧
        t.bufs.inBuf = s.bufs.inBuf ∧
        (∀ j : Fin 128, t.bufs.outBuf[j] = if r.kind = .mcRead ∧ r.k = 11 + j.val then b else s.bufs.outBuf[j]) ∧
        (∀ j : Fin 2, t.bufs.padBuf[j] = if r.kind = .padPoll ∧ r.k = 5 + j.val then b
          else if r.kind = .padPoll ∧ r.resultOn b = some false then 0 else s.bufs.padBuf[j]) ∧
        (r.resultOn b = none →
          t.dev.seen = s.dev.seen ++ [.exchange (shiftCycles c b)] ∧
          t.bus.op = some (r.carriedOn c b) ∧ t.bus.session = some n ∧ t.bus.sel = s.bus.sel ∧
          t.results = s.results ∧ untimedEvents t.events = untimedEvents s.events) ∧
        ∀ ok, r.resultOn b = some ok →
          t.dev.seen = s.dev.seen ++ [.exchange (shiftCycles c b), .select n true] ∧
          t.bus.op = none ∧ t.bus.session = none ∧ t.bus.sel = s.bus.sel.set n true ∧
          t.results = s.results ++ [.bool ok] ∧
          untimedEvents t.events = untimedEvents s.events ++ if ok then [] else [r.failureOn b]

/-- R83, R86, R205 with R251: a response byte code completes in every state without an operation in progress: it is listed
for a later exchange, and nothing else changes. That it may come so is the model's reading (log 10). -/
def Obligations.ReceivedCodeIsListed : Prop :=
  ∀ (s : State) (i : Instr) (b : Byte),
    (i = .rspFail ∧ b = 0xFF ∨ i = .mcId0 ∧ b = 0x5A ∨ i = .mcAck1 ∧ b = 0x5C ∨ i = .stGood ∧ b = 0x47 ∨
      i = .rspBadchk ∧ b = 0x4E ∨ i = .padId0 ∧ b = 0x41 ∨ i = .padId1 ∧ b = 0x5A) →
    s.bus.op = none →
    exec i s = .next { s with dev := { s.dev with answers := s.dev.answers ++ [b] } }

/-- R194, R195, R203, R83: the response codes that end an operation at their position: the result, the event, the select
line high, the session closed. The other slot's select line, the decoder, the channel and the caller's buffers keep
their values. -/
def Obligations.ReceivedCodeEndsOperation : Prop :=
  ∀ (s : State) (i : Instr) (r : OpRun) (n : Fin 2) (ok : Bool) (e : List Event), s.bus.op = some r →
    s.bus.session = some n →
    (i = .rspFail ∧ r.k = 2 ∧ r.kind ≠ .padPoll ∧ ok = false ∧ e = [.devAbsent] ∨
      i = .rspFail ∧ r.k = 7 ∧ r.kind = .mcRead ∧ ok = false ∧ e = [.badAck1] ∨
      i = .stGood ∧ r.k = 140 ∧ r.kind = .mcRead ∧ r.chk = r.rx ∧ ok = true ∧ e = [] ∨
      i = .stGood ∧ r.k = 140 ∧ r.kind = .mcRead ∧ r.chk ≠ r.rx ∧ ok = false ∧ e = [.badChecksum] ∨
      i = .rspBadchk ∧ r.k = 140 ∧ r.kind = .mcRead ∧ ok = false ∧ e = [.badStatus] ∨
      i = .stGood ∧ r.k = 138 ∧ r.kind = .mcWrite ∧ ok = true ∧ e = [] ∨
      i = .rspBadchk ∧ r.k = 138 ∧ r.kind = .mcWrite ∧ ok = false ∧ e = [.badStatus]) →
    ∃ t, exec i s = .next t ∧ t.results = s.results ++ [.bool ok] ∧
      untimedEvents t.events = untimedEvents s.events ++ e ∧
      t.bus.op = none ∧ t.bus.session = none ∧ t.bus.sel = s.bus.sel.set n true ∧
      t.bufs = s.bufs ∧ t.dec = s.dec ∧ t.chan = s.chan ∧ t.inputs = s.inputs

/-- R195, R199, R205: the response codes that let an operation go on at their position: its next transfer, with the
session open and no result. -/
def Obligations.ReceivedCodeGoesOn : Prop :=
  ∀ (s : State) (i : Instr) (r : OpRun), s.bus.op = some r →
    (i = .mcAck1 ∧ r.k = 7 ∧ r.kind = .mcRead ∨ i = .mcId0 ∧ r.k = 3 ∧ r.kind = .mcProbe ∨
      i = .padId0 ∧ r.k = 3 ∧ r.kind = .padPoll ∨ i = .padId1 ∧ r.k = 4 ∧ r.kind = .padPoll ∧ r.id0 = 0x41) →
    ∃ t r', exec i s = .next t ∧ t.bus.op = some r' ∧ r'.k = r.k + 1 ∧ r'.kind = r.kind ∧
      (i = .mcId0 → r'.id0 = 0x5A) ∧ (i = .padId0 → r'.id0 = 0x41) ∧
      t.bus.session = s.bus.session ∧ t.bus.sel = s.bus.sel ∧ t.results = s.results ∧
      t.bufs = s.bufs ∧ t.dec = s.dec ∧ t.chan = s.chan ∧ t.inputs = s.inputs

/-! ## Frames over all instructions -/

/-- R21, R24: no block touches the state of another. The instructions of the encoder leave the decoder and the bytes it
receives alone, those of the decoder leave what the encoder wrote alone, both leave the bus controller, the peripherals
and the caller's buffers alone, and the instructions of the peripheral bus leave the decoder and the channel alone. No
instruction changes the inputs or takes back a result. -/
def Obligations.BlocksDoNotInterfere : Prop :=
  ∀ (i : Instr) (s t : State), exec i s = .next t →
    (i.port = .enc → t.dec = s.dec ∧ t.chan.rx = s.chan.rx) ∧
    ((i.port = .dec ∨ i.port = .wire) → t.chan.tx = s.chan.tx) ∧
    ((i.port = .enc ∨ i.port = .dec ∨ i.port = .wire) → t.bus = s.bus ∧ t.dev = s.dev ∧ t.bufs = s.bufs) ∧
    ((i.port = .bus ∨ i.port = .lineOut ∨ i.port = .mcIn ∨ i.port = .padIn) → t.dec = s.dec ∧ t.chan = s.chan) ∧
    t.inputs = s.inputs ∧ ∃ more, t.results = s.results ++ more

/-- R42, R69: In is never written, Out only by MC_READ, and Pad only by PAD_POLL, or by a response to the operation in
progress. That a write to one role's buffer is none to another's rests on the model's choice that no two roles share a
buffer (log 22): of a caller that passes one buffer for two roles the statement says nothing. -/
def Obligations.BuffersWrittenOnlyByTheirOperation : Prop :=
  ∀ (i : Instr) (s t : State), exec i s = .next t →
    t.bufs.inBuf = s.bufs.inBuf ∧
    ((∀ slot sector, i ≠ .mcRead slot sector) → (∀ r, s.bus.op = some r → r.kind ≠ .mcRead) →
      t.bufs.outBuf = s.bufs.outBuf) ∧
    ((∀ slot, i ≠ .padPoll slot) → (∀ r, s.bus.op = some r → r.kind ≠ .padPoll) → t.bufs.padBuf = s.bufs.padBuf)

/-- R38, R244: no instruction turns the microsecond clock back. -/
def Obligations.ClockNeverRunsBack : Prop :=
  ∀ (i : Instr) (s t : State), exec i s = .next t → s.bus.now ≤ t.bus.now

/-! ## The machine -/

/-- R43, R260: power-on. D.node and D.len are left out: the spec gives them no value. -/
def Obligations.ResetValues : Prop :=
  State.reset.dec.phase = .waitSync ∧ State.reset.dec.esc = false ∧ State.reset.dec.count = 0 ∧
  State.reset.dec.payload = [] ∧ State.reset.dec.armed = false ∧ State.reset.dec.localNode = Config.localNode ∧
  State.reset.bus.ack = false ∧ State.reset.bus.compat = false ∧ State.reset.bus.session = none ∧
  State.reset.bus.sel[0] = true ∧ State.reset.bus.sel[1] = true ∧ State.reset.bus.now = 0

/-- R260: power cycled in any state, the CORE's fields take their power-on values. That the parts outside the CORE stay is
the model's choice (log 17), and so is that an operation in progress ends so, with no result (log 24). -/
def Obligations.PowerCycleResets : Prop :=
  ∀ (s : State) (q : List Input), s.inputs = .powerCycle :: q →
    step s = .next { s with dec := State.reset.dec, bus := State.reset.bus, inputs := q }

/-- R261, R134: with nothing presented and no operation in progress the machine waits, and nothing changes. An operation in
progress goes on: its next transfer takes place, as if it were the bus controller's turn (R58, R249; the model's reading,
log 23). -/
def Obligations.IdleMachineWaits : Prop :=
  (∀ s : State, s.inputs = [] → s.bus.op = none → step s = .next s) ∧
  ∀ (s : State) (r : OpRun), s.inputs = [] → s.bus.op = some r → step s = step { s with inputs := [.busTurn] }

/-- R25 to R31, R36, R37, R39, R41: every step from a consistent state leads to a consistent state. -/
def Obligations.StepKeepsConsistency : Prop := ∀ s t : State, s.Inv → step s = .next t → t.Inv

/-- The state after power-on is consistent. -/
def Obligations.ResetIsConsistent : Prop := State.reset.Inv
end

