-- ==== Sys2Proof/Laws/Decode.lean ====
section
/-! SUPPORT. The operand bytes of Decode.lean: what is split is joined again. -/

namespace Sys2Proof

theorem joinU16_split (v : U16) :
    joinU16 (BitVec.ofNat 8 (v.toNat / 256)) (BitVec.ofNat 8 v.toNat) = v := by
  apply BitVec.eq_of_toNat_eq
  simp only [joinU16, BitVec.toNat_ofNat]
  omega

theorem joinU32_split (v : U32) :
    joinU32 (BitVec.ofNat 8 (v.toNat / 16777216)) (BitVec.ofNat 8 (v.toNat / 65536)) (BitVec.ofNat 8 (v.toNat / 256))
      (BitVec.ofNat 8 v.toNat) = v := by
  apply BitVec.eq_of_toNat_eq
  simp only [joinU32, BitVec.toNat_ofNat]
  omega

/-- A payload length that fits two bytes is read back from them. -/
theorem payload_length_read_back {n : Nat} (h : n < 65536) :
    (joinU16 (BitVec.ofNat 8 ((BitVec.ofNat 16 n).toNat / 256)) (BitVec.ofNat 8 (BitVec.ofNat 16 n).toNat)).toNat = n := by
  rw [joinU16_split, BitVec.toNat_ofNat]
  omega

/-- A word of the opcode table is one byte and nine zero bytes when its row has eight bits. -/
theorem tableBytes_eight (w : Nat) : tableBytes 8 w = BitVec.ofNat 8 w :: List.replicate 9 0 := by
  simp [tableBytes, List.range_succ]

end Sys2Proof
end

