-- ==== Sys2Proof/Laws/Flags.lean ====
section
/-! SUPPORT. The ACK flag, its latch and its wait (42_psx_bus_controller.md R161, R163 to R167). -/

namespace Sys2Proof.Machine

@[simp] theorem AckView.tick_ack (w : AckView) : w.tick.ack = w.ack := rfl
@[simp] theorem AckView.tick_edges (w : AckView) : w.tick.edges = w.edges := rfl
@[simp] theorem AckView.tick_now (w : AckView) : w.tick.now = w.now + 1 := rfl
@[simp] theorem AckView.latch_ack (w : AckView) : w.latch.ack = (w.ack || w.edges.headD false) := rfl
@[simp] theorem AckView.latch_edges (w : AckView) : w.latch.edges = w.edges.tail := rfl
@[simp] theorem AckView.latch_now (w : AckView) : w.latch.now = w.now := rfl
@[simp] theorem AckView.clear_ack (w : AckView) : w.clear.ack = false := rfl
@[simp] theorem AckView.clear_edges (w : AckView) : w.clear.edges = w.edges.tail := rfl
@[simp] theorem AckView.clear_now (w : AckView) : w.clear.now = w.now := rfl

/-- The flag at the end of a wait is the wait's answer. -/
theorem ackWait_ack (T : Nat) (w : AckView) : (ackWait T w).2.ack = (ackWait T w).1 := by
  induction T generalizing w with
  | zero => rfl
  | succ T ih =>
    rw [ackWait]
    split
    · assumption
    · exact ih _

/-- A wait takes no more than its bound, and the clock does not run back. -/
theorem ackWait_now (T : Nat) (w : AckView) : w.now ≤ (ackWait T w).2.now ∧ (ackWait T w).2.now ≤ w.now + T := by
  induction T generalizing w with
  | zero => exact ⟨Nat.le_refl _, Nat.le_refl _⟩
  | succ T ih =>
    rw [ackWait]
    split
    · simp
    · have h := ih w.latch.tick
      simp only [AckView.tick_now, AckView.latch_now] at h
      omega

/-- One read of a wait that has microseconds left. -/
theorem ackWait_succ (T : Nat) (w : AckView) :
    ackWait (T + 1) w = if w.latch.ack then (true, w.latch) else ackWait T w.latch.tick := rfl

/-! ## Schedules -/

theorem quiet_head {edges : List Bool} {n : Nat} (h : quiet edges (n + 1)) : edges.headD false = false := by
  have := h 0 (Nat.succ_pos n)
  cases edges with
  | nil => rfl
  | cons b l => simpa using this

theorem quiet_tail {edges : List Bool} {n : Nat} (h : quiet edges (n + 1)) : quiet edges.tail n := by
  intro k hk
  have := h (k + 1) (by omega)
  cases edges with
  | nil => rfl
  | cons b l => simpa using this

theorem firstEdgeAt_tail {edges : List Bool} {j : Nat} (h : firstEdgeAt edges (j + 1)) :
    edges.headD false = false ∧ firstEdgeAt edges.tail j := by
  refine ⟨quiet_head h.1, quiet_tail h.1, ?_⟩
  have := h.2
  cases edges with
  | nil => simp at this
  | cons b l => simpa using this

theorem firstEdgeAt_zero {edges : List Bool} (h : firstEdgeAt edges 0) : edges.headD false = true := by
  have := h.2
  cases edges <;> simp_all

/-! ## Mode -/

@[simp] theorem compatAfter_true (acked : Bool) : compatAfter true acked = true := rfl
@[simp] theorem compatAfter_acked (compat : Bool) : compatAfter compat true = compat := by cases compat <;> rfl
@[simp] theorem compatAfter_missed (compat : Bool) : compatAfter compat false = true := by cases compat <;> rfl

/-- A wait raises no event that is not about time. -/
@[simp] theorem untimedEvents_wait (compat acked : Bool) : untimedEvents (waitEvents compat acked) = [] := by
  cases compat <;> cases acked <;> rfl

@[simp] theorem untimedEvents_append (e f : List Event) : untimedEvents (e ++ f) = untimedEvents e ++ untimedEvents f := by
  simp [untimedEvents]

end Sys2Proof.Machine
end

