-- ==== Sys2Proof/Laws/Operands.lean ====
section
/-! SUPPORT. The pure functions of Operands.lean. -/

namespace Sys2Proof.Machine

/-! ## Escape code -/

theorem esc_of_marker {b : Byte} (h : b = Config.sync ∨ b = Config.escape) : esc b = [Config.escape, b - 1] :=
  if_pos h

theorem esc_of_plain {b : Byte} (hs : b ≠ Config.sync) (he : b ≠ Config.escape) : esc b = [b] :=
  if_neg (not_or.mpr ⟨hs, he⟩)

/-- An escaped byte has one wire byte, or two. -/
theorem esc_length (b : Byte) :
    (esc b).length = if b = Config.sync ∨ b = Config.escape then 2 else 1 := by
  unfold esc
  split <;> rfl

theorem esc_ne_nil (b : Byte) : esc b ≠ [] := by
  unfold esc
  split <;> simp

/-- The encoder never sends 0xE0 as part of a field (30_encoding.md R76). -/
theorem sync_not_mem_esc (b : Byte) : Config.sync ∉ esc b := by
  revert b
  decide

/-! ## Checksum -/

theorem checksum_append (n : Byte) (p q : List Byte) : checksum n (p ++ q) = checksum (checksum n p) q := by
  simp [checksum]

@[simp] theorem checksum_nil (n : Byte) : checksum n [] = n := rfl

/-- A difference in the node number goes through to the checksum. -/
theorem checksum_add (n m : Byte) (p : List Byte) : checksum (n + m) p = checksum n p + m := by
  induction p generalizing n with
  | nil => rfl
  | cons a p ih =>
    have h := ih (n + a)
    simp only [checksum, List.foldl_cons] at h ⊢
    rw [← h]
    congr 1
    rw [BitVec.add_assoc, BitVec.add_assoc, BitVec.add_comm m a]

/-! ## Exchange -/

theorem assemble_bits (b : Byte) : assemble ((List.range 8).map b.getLsbD) = b := by
  revert b
  decide

@[simp] theorem cyclesReceived_shift (c b : Byte) : cyclesReceived (shiftCycles c b) = b := by
  rw [cyclesReceived, shiftCycles, List.map_map]
  exact assemble_bits b

@[simp] theorem cyclesSent_shift (c b : Byte) : cyclesSent (shiftCycles c b) = c := by
  rw [cyclesSent, shiftCycles, List.map_map]
  exact assemble_bits c

/-! ## Buffers -/

theorem bufGet_set {n : Nat} (v : Vector Byte n) (j k : Nat) (b : Byte) (h : k < n) :
    bufGet (bufSet v j b) k = if j = k then b else bufGet v k := by
  unfold bufGet bufSet
  by_cases hjk : j = k
  · subst hjk; simp [h]
  · simp [hjk]

theorem bufGet_of_lt {n : Nat} (v : Vector Byte n) (k : Nat) (h : k < n) : bufGet v k = v[k] := by
  simp [bufGet, h]

/-- One element of a buffer behind a write. -/
theorem bufSet_get {n : Nat} (v : Vector Byte n) (i : Nat) (b : Byte) (j : Fin n) :
  (bufSet v i b)[j] = if i = j.val then b else v[j] := by
  have h := bufGet_set v i j.val b j.isLt
  rwa [bufGet_of_lt _ _ j.isLt, bufGet_of_lt _ _ j.isLt] at h

/-! ## Slots -/

/-- A slot operand in the domain names the slot of its value. -/
theorem slotIndex_of_toNat {slot : Byte} {n : Fin 2} (h : slot.toNat = n.val) : slotIndex slot = n ∧ slotOk slot = true := by
  have hcases : n = 0 ∨ n = 1 := by omega
  rcases hcases with rfl | rfl
  · have : slot = 0 := BitVec.eq_of_toNat_eq h
    subst this
    decide
  · have : slot = 1 := BitVec.eq_of_toNat_eq h
    subst this
    decide

end Sys2Proof.Machine
end

