-- ==== Sys2Proof/Laws/State.lean ====
section
/-! SUPPORT. One lemma for each field of the state under each update of Ops.lean, so that no proof unfolds one. -/

namespace Sys2Proof.Machine

variable (s : State)

@[simp] theorem State.withDec_dec (d : Dec) : (s.withDec d).dec = d := rfl
@[simp] theorem State.withDec_bus (d : Dec) : (s.withDec d).bus = s.bus := rfl
@[simp] theorem State.withDec_chan (d : Dec) : (s.withDec d).chan = s.chan := rfl
@[simp] theorem State.withDec_bufs (d : Dec) : (s.withDec d).bufs = s.bufs := rfl
@[simp] theorem State.withDec_dev (d : Dec) : (s.withDec d).dev = s.dev := rfl
@[simp] theorem State.withDec_inputs (d : Dec) : (s.withDec d).inputs = s.inputs := rfl
@[simp] theorem State.withDec_results (d : Dec) : (s.withDec d).results = s.results := rfl
@[simp] theorem State.withDec_events (d : Dec) : (s.withDec d).events = s.events := rfl

@[simp] theorem State.withBus_dec (b : Bus) : (s.withBus b).dec = s.dec := rfl
@[simp] theorem State.withBus_bus (b : Bus) : (s.withBus b).bus = b := rfl
@[simp] theorem State.withBus_chan (b : Bus) : (s.withBus b).chan = s.chan := rfl
@[simp] theorem State.withBus_bufs (b : Bus) : (s.withBus b).bufs = s.bufs := rfl
@[simp] theorem State.withBus_dev (b : Bus) : (s.withBus b).dev = s.dev := rfl
@[simp] theorem State.withBus_inputs (b : Bus) : (s.withBus b).inputs = s.inputs := rfl
@[simp] theorem State.withBus_results (b : Bus) : (s.withBus b).results = s.results := rfl
@[simp] theorem State.withBus_events (b : Bus) : (s.withBus b).events = s.events := rfl

@[simp] theorem State.withChan_dec (c : Channel) : (s.withChan c).dec = s.dec := rfl
@[simp] theorem State.withChan_bus (c : Channel) : (s.withChan c).bus = s.bus := rfl
@[simp] theorem State.withChan_chan (c : Channel) : (s.withChan c).chan = c := rfl
@[simp] theorem State.withChan_bufs (c : Channel) : (s.withChan c).bufs = s.bufs := rfl
@[simp] theorem State.withChan_dev (c : Channel) : (s.withChan c).dev = s.dev := rfl
@[simp] theorem State.withChan_inputs (c : Channel) : (s.withChan c).inputs = s.inputs := rfl
@[simp] theorem State.withChan_results (c : Channel) : (s.withChan c).results = s.results := rfl
@[simp] theorem State.withChan_events (c : Channel) : (s.withChan c).events = s.events := rfl

@[simp] theorem State.withBufs_dec (b : Buffers) : (s.withBufs b).dec = s.dec := rfl
@[simp] theorem State.withBufs_bus (b : Buffers) : (s.withBufs b).bus = s.bus := rfl
@[simp] theorem State.withBufs_chan (b : Buffers) : (s.withBufs b).chan = s.chan := rfl
@[simp] theorem State.withBufs_bufs (b : Buffers) : (s.withBufs b).bufs = b := rfl
@[simp] theorem State.withBufs_dev (b : Buffers) : (s.withBufs b).dev = s.dev := rfl
@[simp] theorem State.withBufs_inputs (b : Buffers) : (s.withBufs b).inputs = s.inputs := rfl
@[simp] theorem State.withBufs_results (b : Buffers) : (s.withBufs b).results = s.results := rfl
@[simp] theorem State.withBufs_events (b : Buffers) : (s.withBufs b).events = s.events := rfl

@[simp] theorem State.withDev_dec (d : Device) : (s.withDev d).dec = s.dec := rfl
@[simp] theorem State.withDev_bus (d : Device) : (s.withDev d).bus = s.bus := rfl
@[simp] theorem State.withDev_chan (d : Device) : (s.withDev d).chan = s.chan := rfl
@[simp] theorem State.withDev_bufs (d : Device) : (s.withDev d).bufs = s.bufs := rfl
@[simp] theorem State.withDev_dev (d : Device) : (s.withDev d).dev = d := rfl
@[simp] theorem State.withDev_inputs (d : Device) : (s.withDev d).inputs = s.inputs := rfl
@[simp] theorem State.withDev_results (d : Device) : (s.withDev d).results = s.results := rfl
@[simp] theorem State.withDev_events (d : Device) : (s.withDev d).events = s.events := rfl

@[simp] theorem State.withInputs_dec (q : List Input) : (s.withInputs q).dec = s.dec := rfl
@[simp] theorem State.withInputs_bus (q : List Input) : (s.withInputs q).bus = s.bus := rfl
@[simp] theorem State.withInputs_chan (q : List Input) : (s.withInputs q).chan = s.chan := rfl
@[simp] theorem State.withInputs_bufs (q : List Input) : (s.withInputs q).bufs = s.bufs := rfl
@[simp] theorem State.withInputs_dev (q : List Input) : (s.withInputs q).dev = s.dev := rfl
@[simp] theorem State.withInputs_inputs (q : List Input) : (s.withInputs q).inputs = q := rfl
@[simp] theorem State.withInputs_results (q : List Input) : (s.withInputs q).results = s.results := rfl
@[simp] theorem State.withInputs_events (q : List Input) : (s.withInputs q).events = s.events := rfl

@[simp] theorem State.returns_dec (r : Result) : (s.returns r).dec = s.dec := rfl
@[simp] theorem State.returns_bus (r : Result) : (s.returns r).bus = s.bus := rfl
@[simp] theorem State.returns_chan (r : Result) : (s.returns r).chan = s.chan := rfl
@[simp] theorem State.returns_bufs (r : Result) : (s.returns r).bufs = s.bufs := rfl
@[simp] theorem State.returns_dev (r : Result) : (s.returns r).dev = s.dev := rfl
@[simp] theorem State.returns_inputs (r : Result) : (s.returns r).inputs = s.inputs := rfl
@[simp] theorem State.returns_results (r : Result) : (s.returns r).results = s.results ++ [r] := rfl
@[simp] theorem State.returns_events (r : Result) : (s.returns r).events = s.events := rfl

@[simp] theorem State.raises_dec (e : List Event) : (s.raises e).dec = s.dec := rfl
@[simp] theorem State.raises_bus (e : List Event) : (s.raises e).bus = s.bus := rfl
@[simp] theorem State.raises_chan (e : List Event) : (s.raises e).chan = s.chan := rfl
@[simp] theorem State.raises_bufs (e : List Event) : (s.raises e).bufs = s.bufs := rfl
@[simp] theorem State.raises_dev (e : List Event) : (s.raises e).dev = s.dev := rfl
@[simp] theorem State.raises_inputs (e : List Event) : (s.raises e).inputs = s.inputs := rfl
@[simp] theorem State.raises_results (e : List Event) : (s.raises e).results = s.results := rfl
@[simp] theorem State.raises_events (e : List Event) : (s.raises e).events = s.events ++ e := rfl

/-- Two states with equal fields are equal. -/
theorem State.ext_fields {s t : State} (h1 : s.dec = t.dec) (h2 : s.bus = t.bus) (h3 : s.chan = t.chan)
    (h4 : s.bufs = t.bufs) (h5 : s.dev = t.dev) (h6 : s.inputs = t.inputs) (h7 : s.results = t.results)
    (h8 : s.events = t.events) : s = t := by
  cases s; cases t; simp_all

end Sys2Proof.Machine
end

