-- ==== Sys2Proof/Laws/Ops.lean ====
section
/-! SUPPORT. What each shared operation of Ops.lean does, said once. -/

namespace Sys2Proof.Machine

/-! ## Checks -/

/-- A command whose checks are all clear has its effect. -/
theorem checked_clear {cs : List (Bool × Refusal)} {s : State} (h : ∀ c ∈ cs, c.1 = false) :
    checked cs s = .next s := by
  induction cs with
  | nil => rfl
  | cons c cs ih =>
    have hc : c.1 = false := h c (by simp)
    rw [checked, hc]
    exact ih fun c' hc' => h c' (by simp [hc'])

/-- A command has a next state only when all its checks are clear, and it is the effect. -/
theorem checked_next {cs : List (Bool × Refusal)} {s t : State} (h : checked cs s = .next t) :
    t = s ∧ ∀ c ∈ cs, c.1 = false := by
  induction cs with
  | nil => cases h; simp
  | cons c cs ih =>
    rw [checked] at h
    split at h
    · cases h
    · obtain ⟨rfl, hcs⟩ := ih h
      simp_all

/-- Nothing that is checked faults. -/
theorem checked_no_fault (cs : List (Bool × Refusal)) (s : State) (f : Fault) : checked cs s ≠ .fault f := nomatch f

/-! ## The ACK flag in the state -/

@[simp] theorem State.withAckView_dec (s : State) (w : AckView) : (s.withAckView w).dec = s.dec := rfl
@[simp] theorem State.withAckView_chan (s : State) (w : AckView) : (s.withAckView w).chan = s.chan := rfl
@[simp] theorem State.withAckView_bufs (s : State) (w : AckView) : (s.withAckView w).bufs = s.bufs := rfl
@[simp] theorem State.withAckView_inputs (s : State) (w : AckView) : (s.withAckView w).inputs = s.inputs := rfl
@[simp] theorem State.withAckView_results (s : State) (w : AckView) : (s.withAckView w).results = s.results := rfl
@[simp] theorem State.withAckView_events (s : State) (w : AckView) : (s.withAckView w).events = s.events := rfl
@[simp] theorem State.withAckView_bus (s : State) (w : AckView) :
    (s.withAckView w).bus = { s.bus with ack := w.ack, now := w.now } := rfl
@[simp] theorem State.withAckView_dev (s : State) (w : AckView) :
    (s.withAckView w).dev = { s.dev with ackEdges := w.edges } := rfl

/-! ## Transfer -/

/-- The bound of a transfer's wait. -/
def State.waitBound (s : State) (t : Timing) : Nat := effectiveTimeout s.bus.compat t.timeout

/-- What a transfer's wait starts from: the flag cleared, the schedule behind the clear, and the clock behind the
pre-delay and the exchange. -/
def State.waitStart (s : State) (tXchg : Nat) (t : Timing) : AckView :=
  ⟨false, s.dev.ackEdges.tail, s.bus.now + t.predelay.toNat + tXchg⟩

/-- How a transfer's wait ends. -/
def State.waitEnd (s : State) (tXchg : Nat) (t : Timing) : Bool × AckView :=
  ackWait (s.waitBound t) (s.waitStart tXchg t)

/-- A transfer, whole: the response is the peripheral's; the bus changes in its flags and its clock, the peripherals have
one response less and have seen one exchange, an event may be about time, and nothing else changes. -/
theorem State.transfer_eq (s : State) (tXchg : Nat) (c : Byte) (t : Timing) :
    s.transfer tXchg c t = (s.dev.answerAt 0, { s with
      bus := { s.bus with
        ack := (s.waitEnd tXchg t).2.ack
        compat := compatAfter s.bus.compat (s.waitEnd tXchg t).1
        now := (s.waitEnd tXchg t).2.now }
      dev := { s.dev with
        answers := s.dev.answers.tail
        drawn := s.dev.drawn + 1
        ackEdges := (s.waitEnd tXchg t).2.edges
        seen := s.dev.seen ++ [.exchange (shiftCycles c (s.dev.answerAt 0))] }
      events := s.events ++ waitEvents s.bus.compat (s.waitEnd tXchg t).1 }) := by
  rw [State.transfer, State.exchange]
  simp only [cyclesReceived_shift]
  rfl

@[simp] theorem State.transfer_response (s : State) (tXchg : Nat) (c : Byte) (t : Timing) :
    (s.transfer tXchg c t).1 = s.dev.answerAt 0 := by
  rw [State.transfer_eq]

/-- The responses to come move up by one with each exchange. -/
theorem Device.answerAt_tail (d : Device) (e : List Bool) (l : List LineItem) (n : Nat) :
    (Device.mk d.answers.tail (d.drawn + 1) e l).answerAt n = d.answerAt (n + 1) := by
  simp only [Device.answerAt, List.getElem?_tail]
  rw [Nat.add_assoc, Nat.add_comm 1 n]

/-- A response that is listed in front is the next one. -/
@[simp] theorem Device.answerAt_cons (b : Byte) (a : List Byte) (n : Nat) (e : List Bool) (l : List LineItem) :
    (Device.mk (b :: a) n e l).answerAt 0 = b := rfl

/-! ## Sessions -/

theorem State.beginSession_eq (s : State) (n : Fin 2) : s.beginSession n = { s with
    bus := { s.bus with compat := false, session := some n, sel := s.bus.sel.set n false }
    dev := { s.dev with seen := s.dev.seen ++ [.select n false] } } := rfl

theorem State.endSession_eq (s : State) {n : Fin 2} (h : s.bus.session = some n) : s.endSession = { s with
    bus := { s.bus with session := none, sel := s.bus.sel.set n true }
    dev := { s.dev with seen := s.dev.seen ++ [.select n true] } } := by
  rw [State.endSession, h]
  rfl

theorem State.endSession_none (s : State) (h : s.bus.session = none) : s.endSession = s := by
  rw [State.endSession, h]

end Sys2Proof.Machine
end

