-- ==== Sys2Proof/Laws/Parser.lean ====
section
/-! SUPPORT. The arms of dec_step, and the decoder over a stream of bytes (41_packet_decoder.md R120 to R133). -/

namespace Sys2Proof.Machine

/-! ## Which arm decides (R120) -/

theorem decStep_sync (mode : HuntMode) (d : Dec) : decStep mode d 0xE0 = d.syncArm := rfl

theorem decStep_hunting {mode : HuntMode} {d : Dec} {r : Byte} (hr : r ≠ 0xE0) (h : d.hunting mode = true) :
    decStep mode d r = ⟨d, none, none⟩ := by
  rw [decStep, if_neg hr, if_pos h]

theorem decStep_marker {mode : HuntMode} {d : Dec} (h : d.hunting mode = false) (he : d.esc = false) :
    decStep mode d 0xD0 = d.escArm := by
  rw [decStep, if_neg (by decide), h, if_neg (by simp), if_pos ⟨he, rfl⟩]

theorem decStep_value {mode : HuntMode} {d : Dec} {r : Byte} (hr : r ≠ 0xE0) (h : d.hunting mode = false)
    (he : ¬(d.esc = false ∧ r = 0xD0)) :
    decStep mode d r = d.clearEscape.phaseArm (unescapeValue d.esc r) := by
  rw [decStep, if_neg hr, h, if_neg (by simp), if_neg he]

/-- The decoder hunts only in WaitSync, unarmed, under STRICT. -/
theorem Dec.hunting_eq_false {mode : HuntMode} {d : Dec} (h : d.phase ≠ .waitSync ∨ d.armed = true ∨ mode = .literal) :
    d.hunting mode = false := by
  rcases h with h | h | h <;> simp [Dec.hunting, h]

theorem Dec.hunting_strict {d : Dec} (hp : d.phase = .waitSync) (ha : d.armed = false) : d.hunting .strict = true := by
  simp [Dec.hunting, hp, ha]

/-- One byte does one of four things (R120). -/
theorem decStep_cases (mode : HuntMode) (d : Dec) (r : Byte) :
    r = 0xE0 ∧ decStep mode d r = d.syncArm ∨
    r ≠ 0xE0 ∧ d.hunting mode = true ∧ decStep mode d r = ⟨d, none, none⟩ ∨
    r = 0xD0 ∧ d.hunting mode = false ∧ d.esc = false ∧ decStep mode d r = d.escArm ∨
    r ≠ 0xE0 ∧ ¬(d.esc = false ∧ r = 0xD0) ∧ d.hunting mode = false ∧
      decStep mode d r = d.clearEscape.phaseArm (unescapeValue d.esc r) := by
  by_cases hr : r = 0xE0
  · exact .inl ⟨hr, by rw [hr]; rfl⟩
  · by_cases hh : d.hunting mode = true
    · exact .inr (.inl ⟨hr, hh, decStep_hunting hr hh⟩)
    · have hh : d.hunting mode = false := by simpa using hh
      by_cases he : d.esc = false ∧ r = 0xD0
      · obtain ⟨he, rfl⟩ := he
        exact .inr (.inr (.inl ⟨rfl, hh, he, decStep_marker hh he⟩))
      · exact .inr (.inr (.inr ⟨hr, he, hh, decStep_value hr hh he⟩))

/-- An arm on a value never changes the local node number. -/
theorem Dec.phaseArm_localNode (d : Dec) (v : Byte) : (d.phaseArm v).dec.localNode = d.localNode := by
  unfold Dec.phaseArm
  cases d.phase <;> simp only [Dec.addrArm, Dec.lenArm, Dec.dataArm, Dec.chkArm] <;> split <;> rfl

/-- dec_step never changes the local node number (R131). -/
theorem decStep_localNode (mode : HuntMode) (d : Dec) (r : Byte) : (decStep mode d r).dec.localNode = d.localNode := by
  rcases decStep_cases mode d r with ⟨-, h⟩ | ⟨-, -, h⟩ | ⟨-, -, -, h⟩ | ⟨-, -, -, h⟩ <;> rw [h]
  · rfl
  · rfl
  · exact Dec.phaseArm_localNode _ _

/-! ## Streams -/

@[simp] theorem feedBytes_nil (mode : HuntMode) (d : Dec) : feedBytes mode d [] = ⟨d, [], []⟩ := rfl

theorem feedBytes_cons (mode : HuntMode) (d : Dec) (r : Byte) (rs : List Byte) :
    feedBytes mode d (r :: rs) = ⟨(feedBytes mode (decStep mode d r).dec rs).dec,
      (decStep mode d r).out :: (feedBytes mode (decStep mode d r).dec rs).outs,
      (decStep mode d r).event.toList ++ (feedBytes mode (decStep mode d r).dec rs).events⟩ := rfl

/-- Feeding a stream is feeding its front and then its back. -/
theorem feedBytes_append (mode : HuntMode) (d : Dec) (xs ys : List Byte) :
    feedBytes mode d (xs ++ ys) = ⟨(feedBytes mode (feedBytes mode d xs).dec ys).dec,
      (feedBytes mode d xs).outs ++ (feedBytes mode (feedBytes mode d xs).dec ys).outs,
      (feedBytes mode d xs).events ++ (feedBytes mode (feedBytes mode d xs).dec ys).events⟩ := by
  induction xs generalizing d with
  | nil => rfl
  | cons x xs ih => simp [feedBytes_cons, ih]

@[simp] theorem feedBytes_outs_length (mode : HuntMode) (d : Dec) (xs : List Byte) :
    (feedBytes mode d xs).outs.length = xs.length := by
  induction xs generalizing d with
  | nil => rfl
  | cons x xs ih => simp [feedBytes_cons, ih]

/-- The packets of the decoder's own result. -/
@[simp] theorem packetsIn_append (a b : List Result) : packetsIn (a ++ b) = packetsIn a ++ packetsIn b := by
  simp [packetsIn]

@[simp] theorem packetsIn_packet (out : Option Packet) : packetsIn [.packet out] = out.toList := by
  cases out <;> rfl

end Sys2Proof.Machine
end

