-- ==== Sys2Proof/Laws/Sequencer.lean ====
section
/-! SUPPORT. The turns of an operation (43_peripheral_operations.md R190, R191). -/

namespace Sys2Proof.Machine

theorem State.turn_of_some {s : State} {r : OpRun} (h : s.bus.op = some r) (p : BusParams) : s.turn p = s.turnOf p r := by
  rw [State.turn, h]

theorem State.turn_of_none {s : State} (h : s.bus.op = none) (p : BusParams) : s.turn p = s := by
  rw [State.turn, h]

@[simp] theorem State.turns_zero (s : State) (p : BusParams) : s.turns p 0 = s := rfl

theorem State.turns_succ (s : State) (p : BusParams) (n : Nat) : s.turns p (n + 1) = (s.turn p).turns p n := rfl

/-- Turns after the end of an operation do nothing. -/
theorem State.turns_of_none {s : State} (h : s.bus.op = none) (p : BusParams) (n : Nat) : s.turns p n = s := by
  induction n with
  | zero => rfl
  | succ n ih => rw [State.turns_succ, State.turn_of_none h, ih]

theorem State.turns_add (s : State) (p : BusParams) (m n : Nat) : s.turns p (m + n) = (s.turns p m).turns p n := by
  induction m generalizing s with
  | zero => rw [Nat.zero_add, State.turns_zero]
  | succ m ih => rw [Nat.succ_add, State.turns_succ, State.turns_succ, ih]

/-- The state behind a turn's transfer and stores, before the operation goes on or ends. -/
def State.moved (s : State) (p : BusParams) (r : OpRun) : State :=
  (s.transfer p.tXchg (r.sends s.bufs.inBuf) (r.kind.timing p r.k)).2.withBufs (r.stores (s.dev.answerAt 0) s.bufs)

/-- A turn moves one byte each way, and its verdict depends on nothing but the operation, In and the response. -/
theorem State.turnOf_eq (s : State) (p : BusParams) (r : OpRun) :
    s.turnOf p r = (s.moved p r).settle (r.judges (r.sends s.bufs.inBuf) (s.dev.answerAt 0)) := by
  simp only [State.turnOf, State.moved, State.transfer_eq]

@[simp] theorem State.moved_dec (s : State) (p : BusParams) (r : OpRun) : (s.moved p r).dec = s.dec := by
  simp [State.moved, State.transfer_eq]
@[simp] theorem State.moved_chan (s : State) (p : BusParams) (r : OpRun) : (s.moved p r).chan = s.chan := by
  simp [State.moved, State.transfer_eq]
@[simp] theorem State.moved_inputs (s : State) (p : BusParams) (r : OpRun) : (s.moved p r).inputs = s.inputs := by
  simp [State.moved, State.transfer_eq]
@[simp] theorem State.moved_results (s : State) (p : BusParams) (r : OpRun) : (s.moved p r).results = s.results := by
  simp [State.moved, State.transfer_eq]
@[simp] theorem State.moved_bufs (s : State) (p : BusParams) (r : OpRun) :
    (s.moved p r).bufs = r.stores (s.dev.answerAt 0) s.bufs := by
  simp [State.moved]
@[simp] theorem State.moved_session (s : State) (p : BusParams) (r : OpRun) :
    (s.moved p r).bus.session = s.bus.session := by
  simp [State.moved, State.transfer_eq]
@[simp] theorem State.moved_sel (s : State) (p : BusParams) (r : OpRun) : (s.moved p r).bus.sel = s.bus.sel := by
  simp [State.moved, State.transfer_eq]
@[simp] theorem State.moved_op (s : State) (p : BusParams) (r : OpRun) : (s.moved p r).bus.op = s.bus.op := by
  simp [State.moved, State.transfer_eq]
@[simp] theorem State.moved_drawn (s : State) (p : BusParams) (r : OpRun) : (s.moved p r).dev.drawn = s.dev.drawn + 1 := by
  simp [State.moved, State.transfer_eq]
@[simp] theorem State.moved_seen (s : State) (p : BusParams) (r : OpRun) : (s.moved p r).dev.seen =
    s.dev.seen ++ [.exchange (shiftCycles (r.sends s.bufs.inBuf) (s.dev.answerAt 0))] := by
  simp [State.moved, State.transfer_eq]
@[simp] theorem State.moved_answerAt (s : State) (p : BusParams) (r : OpRun) (n : Nat) :
    (s.moved p r).dev.answerAt n = s.dev.answerAt (n + 1) := by
  simp only [State.moved, State.transfer_eq, State.withBufs_dev]
  exact Device.answerAt_tail _ _ _ _
@[simp] theorem State.moved_events (s : State) (p : BusParams) (r : OpRun) :
    untimedEvents (s.moved p r).events = untimedEvents s.events := by
  simp [State.moved, State.transfer_eq]

/-- An operation that goes on changes nothing but its position. -/
theorem State.settle_goOn (s : State) (r : OpRun) : s.settle (.goOn r) = s.withBus { s.bus with op := some r } := rfl

/-- An operation that ends closes its session and returns its result (R190). -/
theorem State.settle_done (s : State) {n : Fin 2} (h : s.bus.session = some n) (ok : Bool) (e : List Event) :
    s.settle (.done ok e) = { s with
      bus := { s.bus with session := none, sel := s.bus.sel.set n true, op := none }
      dev := { s.dev with seen := s.dev.seen ++ [.select n true] }
      events := s.events ++ e
      results := s.results ++ [.bool ok] } := by
  simp only [State.settle, State.endSession_eq s h]
  rfl

/-- Where nothing is in session (no run reaches it), the result is returned all the same. -/
theorem State.settle_done_none (s : State) (h : s.bus.session = none) (ok : Bool) (e : List Event) :
    s.settle (.done ok e) = { s with
      bus := { s.bus with op := none }
      events := s.events ++ e
      results := s.results ++ [.bool ok] } := by
  simp only [State.settle, State.endSession_none s h]
  rfl

/-- An operation has a next state exactly from an idle bus and operands in the domain, and it is the state after its
turns. -/
theorem operate_next {p : BusParams} {kind : OpKind} {slot : Byte} {sector : U16} {s t : State}
    (h : operate p kind slot sector s = .next t) :
    t = (s.openOp kind slot sector).turns p kind.transfers ∧ s.bus.op = none ∧ s.bus.session = none := by
  obtain ⟨rfl, hc⟩ := checked_next h
  refine ⟨rfl, ?_, ?_⟩
  · have := hc (s.bus.op.isSome, .busy) (by simp [opChecks])
    simpa using this
  · have := hc (s.bus.session.isSome, .sessionOpen) (by simp [opChecks])
    simpa using this

end Sys2Proof.Machine
end

