-- ==== Sys2Proof/Laws/Exec.lean ====
section
/-! SUPPORT. Everything an instruction can do when it has a next state, said once: the whole-machine claims take their
cases from here and unfold no meaning. -/

namespace Sys2Proof.Machine

/-- The operation an instruction starts, with its slot and its sector. -/
def operationOf : Instr → Option (OpKind × Byte × U16)
  | .mcRead slot sector => some (.mcRead, slot, sector)
  | .mcProbe slot sector => some (.mcProbe, slot, sector)
  | .mcWrite slot sector => some (.mcWrite, slot, sector)
  | .padPoll slot => some (.padPoll, slot, 0)
  | _ => none

/-- The next states an instruction can lead to. -/
inductive Executed (i : Instr) (s : State) : State → Prop
  | send (n : Byte) (payload : List Byte) (hi : i = .encSend n payload) (hn : packetNodeOk n = true)
      (hp : payloadOk payload = true) : Executed i s (((s.chanWrite (frame n payload)).chanFlush).returns .unit)
  | feed (b : Byte) (hi : i = .decFeed b ∨ i.port = .wire) : Executed i s (s.feed Config.huntMode b)
  | poll (hi : i = .decPoll) : Executed i s (s.poll Config.huntMode)
  | setNode (node : Byte) (hi : i = .decSetNode node) (hn : localNodeOk node = true) :
      Executed i s ((s.withDec { s.dec with localNode := node }).returns .unit)
  | begin (slot : Byte) (hi : i = .busBegin slot) (ho : s.bus.op = none) (hs : s.bus.session = none) :
      Executed i s ((s.beginSession (slotIndex slot)).returns .unit)
  | finish (slot : Fin 2) (hi : i = .busEnd) (ho : s.bus.op = none) (hs : s.bus.session = some slot) :
      Executed i s (s.endSession.returns .unit)
  | transfer (c : Byte) (tm : Timing) (slot : Fin 2)
      (hi : i = .busXfer c tm.timeout tm.predelay ∨ i.port = .lineOut) (ho : s.bus.op = none)
      (hs : s.bus.session = some slot) :
      Executed i s ((s.transfer Config.tXchgUs c tm).2.returns (.byte (s.transfer Config.tXchgUs c tm).1))
  | operation (kind : OpKind) (slot : Byte) (sector : U16) (hi : operationOf i = some (kind, slot, sector))
      (ho : s.bus.op = none) (hs : s.bus.session = none) :
      Executed i s ((s.openOp kind slot sector).turns Config.busParams kind.transfers)
  | turn (r : OpRun) (hi : i.port = .lineOut) (ho : s.bus.op = some r) : Executed i s (s.turnOf Config.busParams r)
  | answered (b : Byte) (hi : i.port = .mcIn ∨ i.port = .padIn) : Executed i s (s.answered Config.busParams b)

theorem operate_executed {i : Instr} {s t : State} {kind : OpKind} {slot : Byte} {sector : U16}
    (hi : operationOf i = some (kind, slot, sector)) (h : operate Config.busParams kind slot sector s = .next t) :
    Executed i s t := by
  obtain ⟨rfl, ho, hs⟩ := operate_next h
  exact .operation kind slot sector hi ho hs

theorem busXfer_executed {i : Instr} {s t : State} {c : Byte} {tm : Timing}
    (hi : i = .busXfer c tm.timeout tm.predelay ∨ i.port = .lineOut) (h : busXfer Config.tXchgUs c tm s = .next t) :
    Executed i s t := by
  obtain ⟨rfl, hc⟩ := checked_next h
  have ho := hc _ (List.mem_cons_self ..)
  have hs := hc (s.bus.session.isNone, .noSession) (by simp)
  cases hx : s.bus.session with
  | none => simp [hx] at hs
  | some slot => exact .transfer c tm slot hi (by simpa using ho) hx

theorem sendCode_executed {i : Instr} {s t : State} {c : Byte} (hi : i.port = .lineOut)
    (h : sendCode Config.busParams c s = .next t) : Executed i s t := by
  unfold sendCode at h
  split at h
  · next r hr =>
    obtain ⟨rfl, -⟩ := checked_next h
    rw [State.turn_of_some hr]
    exact .turn r hi hr
  · exact busXfer_executed (.inr hi) h

/-- An instruction has no next state but these. -/
theorem executed_of_exec {i : Instr} {s t : State} (h : exec i s = .next t) : Executed i s t := by
  cases i <;> simp only [exec] at h
  case encSend n payload =>
    obtain ⟨rfl, hc⟩ := checked_next h
    have hn := hc _ (List.mem_cons_self ..)
    have hp := hc (!payloadOk payload, .len) (by simp)
    exact .send n payload rfl (by simpa using hn) (by simpa using hp)
  case decFeed b => cases h; exact .feed b (.inl rfl)
  case decPoll => cases h; exact .poll rfl
  case decSetNode node =>
    obtain ⟨rfl, hc⟩ := checked_next h
    exact .setNode node rfl (by simpa using hc _ (List.mem_cons_self ..))
  case busBegin slot =>
    obtain ⟨rfl, hc⟩ := checked_next h
    have ho := hc _ (List.mem_cons_self ..)
    have hs := hc (s.bus.session.isSome, .sessionOpen) (by simp)
    exact .begin slot rfl (by simpa using ho) (by simpa using hs)
  case busXfer c t d => exact busXfer_executed (.inl rfl) h
  case busEnd =>
    obtain ⟨rfl, hc⟩ := checked_next h
    have ho := hc _ (List.mem_cons_self ..)
    have hs := hc (s.bus.session.isNone, .noSession) (by simp)
    cases hx : s.bus.session with
    | none => simp [hx] at hs
    | some slot => exact .finish slot rfl (by simpa using ho) hx
  case mcRead slot sector => exact operate_executed rfl h
  case mcProbe slot sector => exact operate_executed rfl h
  case mcWrite slot sector => exact operate_executed rfl h
  case padPoll slot => exact operate_executed rfl h
  case sync => cases h; exact .feed _ (.inr rfl)
  case escape => cases h; exact .feed _ (.inr rfl)
  case escapedData v => cases h; exact .feed _ (.inr rfl)
  case data v => cases h; exact .feed _ (.inr rfl)
  case selPad => exact sendCode_executed rfl h
  case selMc => exact sendCode_executed rfl h
  case cmdReadR => exact sendCode_executed rfl h
  case cmdWriteW => exact sendCode_executed rfl h
  case cmdPollB => exact sendCode_executed rfl h
  case filler => exact sendCode_executed rfl h
  case rspFail => cases h; exact .answered _ (.inl rfl)
  case mcId0 => cases h; exact .answered _ (.inl rfl)
  case mcAck1 => cases h; exact .answered _ (.inl rfl)
  case stGood => cases h; exact .answered _ (.inl rfl)
  case rspBadchk => cases h; exact .answered _ (.inl rfl)
  case padId0 => cases h; exact .answered _ (.inr rfl)
  case padId1 => cases h; exact .answered _ (.inr rfl)

/-- What holds at the start of an operation and is kept by each turn holds at its end. -/
theorem State.turns_keep {P : State → Prop} (p : BusParams)
    (hturn : ∀ (s : State) (r : OpRun), s.bus.op = some r → P s → P (s.turnOf p r)) (n : Nat) (s : State) (hs : P s) :
    P (s.turns p n) := by
  induction n generalizing s with
  | zero => exact hs
  | succ n ih =>
    rw [State.turns_succ]
    refine ih _ ?_
    cases h : s.bus.op with
    | none => rwa [State.turn_of_none h]
    | some r => rw [State.turn_of_some h]; exact hturn s r h hs

/-! ## What the end of a turn leaves alone -/

@[simp] theorem State.settle_dec (s : State) (v : Verdict) : (s.settle v).dec = s.dec := by
  cases v with
  | goOn r => rfl
  | done ok e => cases h : s.bus.session <;> simp [State.settle_done, State.settle_done_none, h]

@[simp] theorem State.settle_chan (s : State) (v : Verdict) : (s.settle v).chan = s.chan := by
  cases v with
  | goOn r => rfl
  | done ok e => cases h : s.bus.session <;> simp [State.settle_done, State.settle_done_none, h]

@[simp] theorem State.settle_inputs (s : State) (v : Verdict) : (s.settle v).inputs = s.inputs := by
  cases v with
  | goOn r => rfl
  | done ok e => cases h : s.bus.session <;> simp [State.settle_done, State.settle_done_none, h]

@[simp] theorem State.settle_bufs (s : State) (v : Verdict) : (s.settle v).bufs = s.bufs := by
  cases v with
  | goOn r => rfl
  | done ok e => cases h : s.bus.session <;> simp [State.settle_done, State.settle_done_none, h]

@[simp] theorem State.settle_now (s : State) (v : Verdict) : (s.settle v).bus.now = s.bus.now := by
  cases v with
  | goOn r => rfl
  | done ok e => cases h : s.bus.session <;> simp [State.settle_done, State.settle_done_none, h]

@[simp] theorem State.settle_compat (s : State) (v : Verdict) : (s.settle v).bus.compat = s.bus.compat := by
  cases v with
  | goOn r => rfl
  | done ok e => cases h : s.bus.session <;> simp [State.settle_done, State.settle_done_none, h]

@[simp] theorem State.settle_drawn (s : State) (v : Verdict) : (s.settle v).dev.drawn = s.dev.drawn := by
  cases v with
  | goOn r => rfl
  | done ok e => cases h : s.bus.session <;> simp [State.settle_done, State.settle_done_none, h]

/-- A verdict adds its one result, or none. -/
theorem State.settle_results (s : State) (v : Verdict) : ∃ more, (s.settle v).results = s.results ++ more := by
  cases v with
  | goOn r => exact ⟨[], by simp [State.settle_goOn]⟩
  | done ok e => exact ⟨[.bool ok], by cases h : s.bus.session <;> simp [State.settle_done, State.settle_done_none, h]⟩

/-- No transfer turns the clock back. -/
theorem State.transfer_now (s : State) (tXchg : Nat) (c : Byte) (tm : Timing) :
    s.bus.now ≤ (s.transfer tXchg c tm).2.bus.now := by
  have := (ackWait_now (s.waitBound tm) (s.waitStart tXchg tm)).1
  simp only [State.waitStart] at this
  simp only [State.transfer_eq, State.waitEnd, State.waitStart]
  omega

/-! ## A turn -/

theorem State.turnOf_dec (p : BusParams) (s : State) (r : OpRun) : (s.turnOf p r).dec = s.dec := by
  simp [State.turnOf_eq]

theorem State.turnOf_chan (p : BusParams) (s : State) (r : OpRun) : (s.turnOf p r).chan = s.chan := by
  simp [State.turnOf_eq]

theorem State.turnOf_inputs (p : BusParams) (s : State) (r : OpRun) : (s.turnOf p r).inputs = s.inputs := by
  simp [State.turnOf_eq]

theorem State.turnOf_bufs (p : BusParams) (s : State) (r : OpRun) :
    (s.turnOf p r).bufs = r.stores (s.dev.answerAt 0) s.bufs := by
  simp [State.turnOf_eq]

theorem State.turnOf_drawn (p : BusParams) (s : State) (r : OpRun) : (s.turnOf p r).dev.drawn = s.dev.drawn + 1 := by
  simp [State.turnOf_eq]

theorem State.turnOf_now (p : BusParams) (s : State) (r : OpRun) : s.bus.now ≤ (s.turnOf p r).bus.now := by
  simp only [State.turnOf_eq, State.settle_now, State.moved, State.withBufs_bus]
  exact State.transfer_now ..

/-- Compatibility mode outlives a turn (R167). -/
theorem State.turnOf_compat (p : BusParams) (s : State) (r : OpRun) (h : s.bus.compat = true) :
    (s.turnOf p r).bus.compat = true := by
  simp [State.turnOf_eq, State.moved, State.transfer_eq, h]

theorem State.turnOf_results (p : BusParams) (s : State) (r : OpRun) :
    ∃ more, (s.turnOf p r).results = s.results ++ more := by
  simpa [State.turnOf_eq] using State.settle_results (s.moved p r) (r.judges (r.sends s.bufs.inBuf) (s.dev.answerAt 0))

/-- A turn never writes In, writes Out only in MC_READ, and Pad only in PAD_POLL (R42). -/
theorem OpRun.stores_inBuf (r : OpRun) (b : Byte) (x : Buffers) : (r.stores b x).inBuf = x.inBuf := by
  unfold OpRun.stores
  cases r.kind <;> simp only [] <;> repeat' split
  all_goals rfl

theorem OpRun.stores_outBuf (r : OpRun) (b : Byte) (x : Buffers) (h : r.kind ≠ .mcRead) :
    (r.stores b x).outBuf = x.outBuf := by
  unfold OpRun.stores
  cases hk : r.kind <;> simp only [] <;> repeat' split
  all_goals first | rfl | exact absurd hk h

theorem OpRun.stores_padBuf (r : OpRun) (b : Byte) (x : Buffers) (h : r.kind ≠ .padPoll) :
    (r.stores b x).padBuf = x.padBuf := by
  unfold OpRun.stores
  cases hk : r.kind <;> simp only [] <;> repeat' split
  all_goals first | rfl | exact absurd hk h

/-- An operation that goes on is the same operation at its next transfer. -/
theorem OpRun.judges_goOn {r r' : OpRun} {sent b : Byte} (h : r.judges sent b = .goOn r') :
    r'.kind = r.kind ∧ r'.sector = r.sector ∧ r'.k = r.k + 1 := by
  unfold OpRun.judges OpRun.readJudges OpRun.probeJudges OpRun.writeJudges OpRun.padJudges OpRun.absentCheck OpRun.next at h
  cases hk : r.kind <;> simp only [hk] at h <;> (repeat' split at h) <;> cases h <;> simp_all

/-- After a turn the operation has ended, or it is the same operation at its next transfer. -/
theorem State.turnOf_op (p : BusParams) (s : State) (r : OpRun) : (s.turnOf p r).bus.op = none ∨
    ∃ r', (s.turnOf p r).bus.op = some r' ∧ r'.kind = r.kind ∧ r'.sector = r.sector ∧ r'.k = r.k + 1 := by
  rw [State.turnOf_eq]
  cases hv : r.judges (r.sends s.bufs.inBuf) (s.dev.answerAt 0) with
  | goOn r' => exact .inr ⟨r', rfl, OpRun.judges_goOn hv⟩
  | done ok e => exact .inl rfl

/-! ## A response that comes in -/

theorem State.answered_of_some (p : BusParams) (b : Byte) (s : State) {r : OpRun} (h : s.bus.op = some r) :
    s.answered p b = (s.withDev { s.dev with answers := b :: s.dev.answers }).turnOf p r := by
  rw [State.answered, h]
  simp only []
  rw [State.turn_of_some]
  simpa using h

theorem State.answered_of_none (p : BusParams) (b : Byte) (s : State) (h : s.bus.op = none) :
    s.answered p b = s.withDev { s.dev with answers := s.dev.answers ++ [b] } := by
  rw [State.answered, h]

/-! ## DEC_POLL -/

theorem drain_localNode (mode : HuntMode) (d : Dec) (l : List Byte) : (drain mode d l).dec.localNode = d.localNode := by
  induction l generalizing d with
  | nil => rfl
  | cons r rs ih =>
    rw [drain]
    split
    · exact decStep_localNode _ _ _
    · simp only [ih]; exact decStep_localNode _ _ _

end Sys2Proof.Machine
end

