-- ==== Sys2Proof/Laws/Operation.lean ====
section
/-! SUPPORT. An operation from its first transfer to its end: what the state is after any number of its transfers, and
what it is when it has returned (43_peripheral_operations.md R190, R191, R209). -/

namespace Sys2Proof.Machine

/-- The bytes sent so far, each with its answer, as the peripherals see them. -/
def exchanges (sent answers : List Byte) : List LineItem :=
  List.zipWith (fun c b => .exchange (shiftCycles c b)) sent answers

/-- From the state s0 an operation has opened a session on slot n, it has sent these bytes, and r is what comes next. -/
structure Underway (s0 : State) (n : Fin 2) (sent : List Byte) (bufs : Buffers) (r : OpRun) (s : State) : Prop where
  op : s.bus.op = some r
  session : s.bus.session = some n
  sel : s.bus.sel = s0.bus.sel.set n false
  drawn : s.dev.drawn = s0.dev.drawn + sent.length
  answerAt : ∀ j, s.dev.answerAt j = s0.dev.answerAt (sent.length + j)
  seen : s.dev.seen = s0.dev.seen ++ [.select n false] ++ exchanges sent (s0.dev.responses sent.length)
  events : untimedEvents s.events = untimedEvents s0.events
  results : s.results = s0.results
  dec : s.dec = s0.dec
  chan : s.chan = s0.chan
  inputs : s.inputs = s0.inputs
  bufs : s.bufs = bufs

/-- The operation has returned: its result and its event, the session closed, and the addressed slot's line high. -/
structure Ended (s0 : State) (n : Fin 2) (sent : List Byte) (bufs : Buffers) (ok : Bool) (e : List Event) (s : State) :
    Prop where
  op : s.bus.op = none
  session : s.bus.session = none
  sel : s.bus.sel = s0.bus.sel.set n true
  drawn : s.dev.drawn = s0.dev.drawn + sent.length
  seen : s.dev.seen = s0.dev.seen ++ sessionSeen n sent (s0.dev.responses sent.length)
  events : untimedEvents s.events = untimedEvents s0.events ++ untimedEvents e
  results : s.results = s0.results ++ [.bool ok]
  dec : s.dec = s0.dec
  chan : s.chan = s0.chan
  inputs : s.inputs = s0.inputs
  bufs : s.bufs = bufs

theorem Device.responses_succ (d : Device) (k : Nat) : d.responses (k + 1) = d.responses k ++ [d.answerAt k] := by
  simp [Device.responses, List.range_succ]

theorem Device.responses_length (d : Device) (k : Nat) : (d.responses k).length = k := by simp [Device.responses]

theorem exchanges_snoc (d : Device) (sent : List Byte) (c : Byte) :
    exchanges (sent ++ [c]) (d.responses (sent ++ [c]).length) =
      exchanges sent (d.responses sent.length) ++ [.exchange (shiftCycles c (d.answerAt sent.length))] := by
  rw [List.length_append, List.length_singleton, Device.responses_succ]
  exact List.zipWith_append (by rw [Device.responses_length])

/-- An operation begins underway, with nothing sent. -/
theorem Underway.start (s0 : State) {slot : Byte} {n : Fin 2} (hn : slotIndex slot = n) (kind : OpKind) (sector : U16) :
    Underway s0 n [] s0.bufs (OpRun.start kind sector) (s0.openOp kind slot sector) := by
  subst hn
  constructor <;> first | rfl | (intro j; simp [State.openOp, State.beginSession_eq, Device.answerAt]) |
    simp [State.openOp, State.beginSession_eq, exchanges]

/-- A transfer whose verdict is to go on. -/
theorem Underway.goOn {s0 s : State} {n : Fin 2} {sent : List Byte} {bufs : Buffers} {r r' : OpRun} (p : BusParams)
    (h : Underway s0 n sent bufs r s)
    (hv : r.judges (r.sends bufs.inBuf) (s0.dev.answerAt sent.length) = .goOn r') :
    Underway s0 n (sent ++ [r.sends bufs.inBuf]) (r.stores (s0.dev.answerAt sent.length) bufs) r' (s.turn p) := by
  have ha : s.dev.answerAt 0 = s0.dev.answerAt sent.length := by rw [h.answerAt]; rfl
  have hb := h.bufs
  rw [State.turn_of_some h.op, State.turnOf_eq, ha, hb, hv, State.settle_goOn]
  constructor
  · rfl
  · simp [h.session]
  · simp [h.sel]
  · simp [h.drawn, Nat.add_assoc]
  · intro j
    simp only [State.withBus_dev, State.moved_answerAt, h.answerAt, List.length_append, List.length_singleton]
    congr 1
    omega
  · simp only [State.withBus_dev, State.moved_seen, h.seen, exchanges_snoc, ha, hb, List.append_assoc]
  · simp [h.events]
  · simp [h.results]
  · simp [h.dec]
  · simp [h.chan]
  · simp [h.inputs]
  · simp [ha, hb]

/-- A transfer whose verdict ends the operation; turns behind it do nothing. -/
theorem Underway.done {s0 s : State} {n : Fin 2} {sent : List Byte} {bufs : Buffers} {r : OpRun} {ok : Bool}
    {e : List Event} (p : BusParams) (h : Underway s0 n sent bufs r s)
    (hv : r.judges (r.sends bufs.inBuf) (s0.dev.answerAt sent.length) = .done ok e) (m : Nat) :
    Ended s0 n (sent ++ [r.sends bufs.inBuf]) (r.stores (s0.dev.answerAt sent.length) bufs) ok e (s.turns p (m + 1)) := by
  have ha : s.dev.answerAt 0 = s0.dev.answerAt sent.length := by rw [h.answerAt]; rfl
  have hb := h.bufs
  rw [State.turns_succ, State.turn_of_some h.op, State.turnOf_eq, ha, hb, hv,
    State.settle_done _ (n := n) (by simp [h.session]), State.turns_of_none rfl]
  constructor
  · rfl
  · rfl
  · simp [h.sel]
  · simp [h.drawn, Nat.add_assoc]
  · simp only [State.moved_seen, h.seen, ha, hb, sessionSeen]
    rw [← exchanges, exchanges_snoc]
    simp
  · simp [h.events]
  · simp [h.results]
  · simp [h.dec]
  · simp [h.chan]
  · simp [h.inputs]
  · simp [ha, hb]

/-- An operation from an idle bus, operands in the domain, is its turns. -/
theorem operate_idle {p : BusParams} {kind : OpKind} {slot : Byte} {sector : U16} {s : State} (ho : s.bus.op = none)
    (hs : s.bus.session = none) (hslot : slotOk slot = true) (hsector : kind = .padPoll ∨ sectorOk sector = true) :
    operate p kind slot sector s = .next ((s.openOp kind slot sector).turns p kind.transfers) := by
  refine checked_clear fun c hc => ?_
  simp only [opChecks, List.mem_cons, List.not_mem_nil, or_false] at hc
  rcases hc with rfl | rfl | rfl | rfl
  · simp [ho]
  · simp [hslot]
  · rcases hsector with rfl | h
    · rfl
    · simp [h]
  · simp [hs]

/-! ## The operation as a function of the responses alone -/

/-- How an operation ends: the bytes it sent, the caller's buffers, its result, its event. -/
structure Played where
  sent : List Byte
  bufs : Buffers
  ok : Bool
  events : List Event
  deriving DecidableEq, Repr

/-- The transfers of an operation against given responses, with no machine around it. -/
def play (answers : Nat → Byte) : Nat → List Byte → Buffers → OpRun → Option Played
  | 0, _, _, _ => none
  | m + 1, sent, bufs, r =>
    match r.judges (r.sends bufs.inBuf) (answers sent.length) with
    | .goOn r' =>
      play answers m (sent ++ [r.sends bufs.inBuf]) (r.stores (answers sent.length) bufs) r'
    | .done ok e => some ⟨sent ++ [r.sends bufs.inBuf], r.stores (answers sent.length) bufs, ok, e⟩

theorem play_goOn {answers : Nat → Byte} {m : Nat} {sent : List Byte} {bufs : Buffers} {r r' : OpRun}
    (h : r.judges (r.sends bufs.inBuf) (answers sent.length) = .goOn r') :
    play answers (m + 1) sent bufs r =
      play answers m (sent ++ [r.sends bufs.inBuf]) (r.stores (answers sent.length) bufs) r' := by
  rw [play, h]

theorem play_done {answers : Nat → Byte} {m : Nat} {sent : List Byte} {bufs : Buffers} {r : OpRun} {ok : Bool}
    {e : List Event} (h : r.judges (r.sends bufs.inBuf) (answers sent.length) = .done ok e) :
    play answers (m + 1) sent bufs r =
      some ⟨sent ++ [r.sends bufs.inBuf], r.stores (answers sent.length) bufs, ok, e⟩ := by
  rw [play, h]

/-- The machine does what `play` says. -/
theorem Underway.played {s0 s : State} {n : Fin 2} {sent : List Byte} {bufs : Buffers} {r : OpRun} {m : Nat}
    {q : Played} (p : BusParams) (h : Underway s0 n sent bufs r s) (hq : play s0.dev.answerAt m sent bufs r = some q) :
    Ended s0 n q.sent q.bufs q.ok q.events (s.turns p m) := by
  induction m generalizing s sent bufs r with
  | zero => cases hq
  | succ m ih =>
    cases hv : r.judges (r.sends bufs.inBuf) (s0.dev.answerAt sent.length) with
    | goOn r' =>
      rw [play_goOn hv] at hq
      rw [State.turns_succ]
      exact ih (h.goOn p hv) hq
    | done ok e =>
      rw [play_done hv] at hq
      cases hq
      exact h.done p hv m

/-- An operation from an idle bus, operands in the domain, ends as `play` says. -/
theorem operate_played {p : BusParams} {kind : OpKind} {slot : Byte} {sector : U16} {s : State} {n : Fin 2} {q : Played}
    (ho : s.bus.op = none) (hs : s.bus.session = none) (hn : slot.toNat = n.val)
    (hsector : kind = .padPoll ∨ sectorOk sector = true)
    (hq : play s.dev.answerAt kind.transfers [] s.bufs (OpRun.start kind sector) = some q) :
    ∃ t, operate p kind slot sector s = .next t ∧ Ended s n q.sent q.bufs q.ok q.events t :=
  have h := slotIndex_of_toNat hn
  ⟨_, operate_idle ho hs h.2 hsector, (Underway.start s h.1 kind sector).played p hq⟩

/-! ## A transfer of an operation in progress, said without its sequencer -/

/-- In its range the verdict of a transfer is what the rules say of its response: the operation goes on with the values it
carries, or it ends with its result and its event. -/
theorem OpRun.judges_eq (r : OpRun) (c b : Byte) (h1 : 1 ≤ r.k) (h2 : r.k ≤ r.kind.transfers) :
    r.judges c b = match r.resultOn b with
    | none => .goOn (r.carriedOn c b)
    | some ok => .done ok (if ok then [] else [r.failureOn b]) := by
  obtain ⟨kind, sec, k, id0, chk, rx⟩ := r
  cases kind
  case mcProbe =>
    simp only [OpKind.transfers] at h1 h2
    obtain rfl | rfl | rfl | rfl : k = 1 ∨ k = 2 ∨ k = 3 ∨ k = 4 := by omega
    · rfl
    · rcases em (b = 255#8) with h | h <;> simp [OpRun.judges, OpRun.probeJudges, OpRun.absentCheck,
        OpRun.resultOn, OpRun.next, OpRun.carriedOn, OpRun.failureOn, h]
    · rfl
    · rcases em (id0 = 90#8) with h | h <;> simp [OpRun.judges, OpRun.probeJudges, OpRun.resultOn, OpRun.failureOn, h]
  case padPoll =>
    simp only [OpKind.transfers] at h1 h2
    obtain rfl | rfl | rfl | rfl | rfl | rfl : k = 1 ∨ k = 2 ∨ k = 3 ∨ k = 4 ∨ k = 5 ∨ k = 6 := by omega
    · rfl
    · rfl
    · rfl
    · by_cases h : id0 = 0x41 ∧ b = 0x5A
      · simp [OpRun.judges, OpRun.padJudges, OpRun.resultOn, OpRun.next, OpRun.carriedOn, h]
      · simp only [OpRun.judges, OpRun.padJudges, OpRun.resultOn]
        have h' : ¬(id0 = 65#8 ∧ b = 90#8) := h
        simp [-not_and, h', OpRun.failureOn]
    · rfl
    · rfl
  case mcWrite =>
    simp only [OpKind.transfers] at h1 h2
    by_cases e2 : k = 2
    · subst e2
      rcases em (b = 255#8) with h | h <;> simp [OpRun.judges, OpRun.writeJudges, OpRun.absentCheck,
        OpRun.resultOn, OpRun.next, OpRun.carriedOn, OpRun.failureOn, h]
    by_cases e3 : k = 138
    · subst e3
      rcases em (b = 71#8) with h | h <;> simp [OpRun.judges, OpRun.writeJudges, OpRun.resultOn, OpRun.failureOn, h]
    simp only [OpRun.judges, OpRun.writeJudges, OpRun.resultOn, OpRun.next, OpRun.carriedOn, e2, e3, false_and,
      if_false, reduceCtorEq, or_self]
    by_cases e5 : k = 5
    · subst e5; rfl
    by_cases e4 : k < 5
    · have : ¬(6 ≤ k ∧ k ≤ 134) := by omega
      simp only [e4, e5, this, if_true, if_false]
    by_cases e6 : k < 135
    · have : (6 ≤ k ∧ k ≤ 134) := by omega
      simp only [e4, e5, e6, this, if_true, if_false, and_self]
    · have : ¬(6 ≤ k ∧ k ≤ 134) := by omega
      have e7 : k < 138 := by omega
      simp only [e4, e5, e6, e7, this, if_true, if_false]
  case mcRead =>
    simp only [OpKind.transfers] at h1 h2
    by_cases e2 : k = 2
    · subst e2
      rcases em (b = 255#8) with h | h <;> simp [OpRun.judges, OpRun.readJudges, OpRun.absentCheck, OpRun.resultOn,
        OpRun.next, OpRun.carriedOn, OpRun.failureOn, h]
    by_cases e7 : k = 7
    · subst e7
      rcases em (b = 92#8) with h | h <;> simp [OpRun.judges, OpRun.readJudges, OpRun.resultOn, OpRun.next,
        OpRun.carriedOn, OpRun.failureOn, h]
    by_cases e3 : k = 140
    · subst e3
      rcases em (b = 71#8) with h | h <;> by_cases hx : chk = rx <;> simp [OpRun.judges, OpRun.readJudges,
        OpRun.resultOn, OpRun.failureOn, h, hx]
    simp only [OpRun.judges, OpRun.readJudges, OpRun.resultOn, OpRun.next, OpRun.carriedOn, e2, e3, e7, false_and,
      if_false, or_self, reduceCtorEq, true_and]
    by_cases e9 : k = 9
    · subst e9; rfl
    by_cases e4 : k < 9
    · have : ¬(10 ≤ k ∧ k ≤ 138) := by omega
      have e8 : ¬ k = 139 := by omega
      simp only [e4, e9, e8, this, if_true, if_false]
    by_cases e6 : k < 139
    · have : (10 ≤ k ∧ k ≤ 138) := by omega
      have e8 : ¬ k = 139 := by omega
      simp only [e4, e9, e6, e8, this, if_true, if_false, and_self]
    · obtain rfl : k = 139 := by omega
      simp

/-- Out behind a transfer (R198). -/
theorem OpRun.stores_outBuf_get (r : OpRun) (b : Byte) (x : Buffers) (j : Fin 128) :
    (r.stores b x).outBuf[j] = if r.kind = .mcRead ∧ r.k = 11 + j.val then b else x.outBuf[j] := by
  by_cases hk : r.kind = .mcRead
  · obtain ⟨kind, sec, k, id0, chk, rx⟩ := r
    cases hk
    by_cases hr : 11 ≤ k ∧ k ≤ 138
    · have e : (OpRun.stores ⟨.mcRead, sec, k, id0, chk,
        rx⟩ b x).outBuf = bufSet x.outBuf (k - 11) b := by simp [OpRun.stores, hr]
      refine (congrArg (fun v : Vector Byte 128 => v[j]) e).trans ((bufSet_get ..).trans ?_)
      have : (k - 11 = j.val) ↔ (k = 11 + j.val) := by omega
      simp only [this, true_and]
    · have e : (OpRun.stores ⟨.mcRead, sec, k, id0, chk, rx⟩ b x).outBuf = x.outBuf := by simp only [OpRun.stores,
        if_neg hr]
      refine (congrArg (fun v : Vector Byte 128 => v[j]) e).trans ?_
      rw [if_neg (by simp only []; omega)]
  · refine (congrArg (fun v : Vector Byte 128 => v[j]) (OpRun.stores_outBuf r b x hk)).trans ?_
    rw [if_neg (fun h => hk h.1)]

/-- Pad behind a transfer (R204, R206). -/
theorem OpRun.stores_padBuf_get (r : OpRun) (b : Byte) (x : Buffers) (j : Fin 2) (h1 : 1 ≤ r.k) (h2 :
  r.k ≤ r.kind.transfers) :
    (r.stores b x).padBuf[j] = if r.kind = .padPoll ∧ r.k = 5 + j.val then b
          else if r.kind = .padPoll ∧ r.resultOn b = some false then 0 else x.padBuf[j] := by
  by_cases hk : r.kind = .padPoll
  · obtain ⟨kind, sec, k, id0, chk, rx⟩ := r
    cases hk
    simp only [OpKind.transfers] at h1 h2
    match j with
    | 0 => 
      by_cases h : id0 = 65#8 ∧ b = 90#8 <;> obtain rfl | rfl | rfl | rfl | rfl | rfl : k = 1 ∨ k = 2 ∨ k = 3 ∨
        k = 4 ∨ k = 5 ∨ k = 6 := by omega
      all_goals simp [-not_and, OpRun.stores, OpRun.resultOn, h, bufSet]
    | 1 => 
      by_cases h : id0 = 65#8 ∧ b = 90#8 <;> obtain rfl | rfl | rfl | rfl | rfl | rfl : k = 1 ∨ k = 2 ∨ k = 3 ∨
        k = 4 ∨ k = 5 ∨ k = 6 := by omega
      all_goals simp [-not_and, OpRun.stores, OpRun.resultOn, h, bufSet]
  · refine (congrArg (fun v : Vector Byte 2 => v[j]) (OpRun.stores_padBuf r b x hk)).trans ?_
    rw [if_neg (fun h => hk h.1), if_neg (fun h => hk h.1)]

end Sys2Proof.Machine
end

