-- ==== Sys2Proof/Laws/PerInstr.lean ====
section
/-! SUPPORT. Statements made instruction by instruction. EncodedLength: how many bytes an instruction has, its first byte and
its operands as 30_encoding.md R88 types them (a u16 takes two bytes, a u32 four, a payload its length field and itself). -/

namespace Sys2Proof.Laws.EncodedLength

/-- The size of an instruction in bytes. -/
def size : Instr → Nat
  | .encSend _ payload => 4 + payload.length
  | .decFeed _ | .decSetNode _ | .busBegin _ | .padPoll _ => 2
  | .mcRead _ _ | .mcProbe _ _ | .mcWrite _ _ => 4
  | .busXfer _ _ _ => 10
  | .decPoll | .busEnd => 1
  | .sync | .escape | .escapedData _ | .data _ => 1
  | .selPad | .selMc | .cmdReadR | .cmdWriteW | .cmdPollB | .filler => 1
  | .rspFail | .mcId0 | .mcAck1 | .stGood | .rspBadchk | .padId0 | .padId1 => 1

def Statement (i : Instr) : Prop := (encode i).length = size i

theorem encSend (n : Byte) (payload : List Byte) : Statement (.encSend n payload) := by
  simp [Statement, size, encode, Instr.operands, splitU16]
  omega

theorem decFeed (b : Byte) : Statement (.decFeed b) := rfl
theorem decPoll : Statement .decPoll := rfl
theorem decSetNode (node : Byte) : Statement (.decSetNode node) := rfl
theorem busBegin (slot : Byte) : Statement (.busBegin slot) := rfl
theorem busXfer (cmd : Byte) (timeout predelay : U32) : Statement (.busXfer cmd timeout predelay) := rfl
theorem busEnd : Statement .busEnd := rfl
theorem mcRead (slot : Byte) (sector : U16) : Statement (.mcRead slot sector) := rfl
theorem mcProbe (slot : Byte) (sector : U16) : Statement (.mcProbe slot sector) := rfl
theorem mcWrite (slot : Byte) (sector : U16) : Statement (.mcWrite slot sector) := rfl
theorem padPoll (slot : Byte) : Statement (.padPoll slot) := rfl
theorem sync : Statement .sync := rfl
theorem escape : Statement .escape := rfl
theorem escapedData (v : Byte) : Statement (.escapedData v) := rfl
theorem data (v : Byte) : Statement (.data v) := rfl
theorem selPad : Statement .selPad := rfl
theorem selMc : Statement .selMc := rfl
theorem cmdReadR : Statement .cmdReadR := rfl
theorem cmdWriteW : Statement .cmdWriteW := rfl
theorem cmdPollB : Statement .cmdPollB := rfl
theorem filler : Statement .filler := rfl
theorem rspFail : Statement .rspFail := rfl
theorem mcId0 : Statement .mcId0 := rfl
theorem mcAck1 : Statement .mcAck1 := rfl
theorem stGood : Statement .stGood := rfl
theorem rspBadchk : Statement .rspBadchk := rfl
theorem padId0 : Statement .padId0 := rfl
theorem padId1 : Statement .padId1 := rfl

end Sys2Proof.Laws.EncodedLength
end

