-- ==== Sys2Proof/Laws/Stream.lean ====
section
/-! SUPPORT. Frames and polls as streams of bytes: what the wire bytes of a field value, of a payload and of a whole frame do
to the decoder, and what a poll consumes. -/

namespace Sys2Proof.Machine

/-- DEC_POLL consumes a front of the bytes as feeding them does, up to the first packet or to the end. -/
theorem drain_spec (mode : HuntMode) (d : Dec) (xs : List Byte) : ∃ used, xs = used ++ (drain mode d xs).rest ∧
    (drain mode d xs).dec = (feedBytes mode d used).dec ∧ (drain mode d xs).events = (feedBytes mode d used).events ∧
    ((drain mode d xs).out = none → (drain mode d xs).rest = [] ∧ ∀ o ∈ (feedBytes mode d used).outs, o = none) ∧
    (∀ p, (drain mode d xs).out = some p → used ≠ [] ∧ (feedBytes mode d used).outs = List.replicate (used.length - 1) none ++ [some p]) := by
  induction xs generalizing d with
  | nil => exact ⟨[], by simp [drain]⟩
  | cons x xs ih =>
    rw [drain]
    cases ho : (decStep mode d x).out with
    | some p =>
      refine ⟨[x], by simp [feedBytes_cons, ho]⟩
    | none =>
      obtain ⟨used, h1, h2, h3, h4, h5⟩ := ih (decStep mode d x).dec
      refine ⟨x :: used, by simpa using h1, ?_⟩
      simp only [feedBytes_cons, ho, h2, h3, true_and]
      refine ⟨fun hn => ⟨(h4 hn).1, by simpa using (h4 hn).2⟩, fun p hp => ⟨by simp, ?_⟩⟩
      obtain ⟨hne, h⟩ := h5 p hp
      rw [h]
      cases used with
      | nil => simp at hne
      | cons a l => simp [List.replicate_succ]

/-- These wire bytes carry this field value (30_encoding.md R77): the value itself where it is no marker, or the marker and
a byte one less. -/
def wireOf (w : List Byte) (v : Byte) : Prop := (w = [v] ∧ v ≠ 0xE0 ∧ v ≠ 0xD0) ∨ ∃ x, w = [0xD0, x] ∧ x ≠ 0xE0 ∧ v = x + 1

theorem wireOf_esc (b : Byte) : wireOf (esc b) b := by
  by_cases h : b = 0xE0 ∨ b = 0xD0
  · rw [esc_of_marker h]
    refine .inr ⟨b - 1, rfl, ?_, by simp⟩
    rcases h with rfl | rfl <;> decide
  · rw [not_or] at h
    exact .inl ⟨esc_of_plain h.1 h.2, h.1, h.2⟩

/-- The wire bytes of a value do what the phase arm does on the value. -/
theorem feed_wireOf {mode : HuntMode} {d : Dec} {w : List Byte} {v : Byte} (hw : wireOf w v) (hh : d.hunting mode = false) (he : d.esc = false) :
    feedBytes mode d w = ⟨(d.phaseArm v).dec, List.replicate (w.length - 1) none ++ [(d.phaseArm v).out], (d.phaseArm v).event.toList⟩ := by
  have hd : d.clearEscape = d := by cases d; simp_all [Dec.clearEscape]
  rcases hw with ⟨rfl, h1, h2⟩ | ⟨x, rfl, h1, rfl⟩
  · rw [feedBytes_cons, decStep_value h1 hh (fun h => h2 h.2)]
    simp [hd, he, unescapeValue]
  · have hh' : d.escArm.dec.hunting mode = false := hh
    rw [feedBytes_cons, decStep_marker hh he, feedBytes_cons, decStep_value h1 hh' (by simp [Dec.escArm, Dec.markEscape])]
    have : d.escArm.dec.clearEscape = d := by cases d; simp_all [Dec.escArm, Dec.clearEscape, Dec.markEscape]
    rw [this]
    simp [Dec.escArm, Dec.markEscape, unescapeValue, List.replicate_succ]

/-- The wire bytes of the payload values that are still missing take the parser to the checksum. -/
theorem feed_payload {mode : HuntMode} : ∀ (ws : List (List Byte)) (vs : List Byte), List.Forall₂ wireOf ws vs → ∀ d : Dec,
    d.phase = .receivingData → d.esc = false → d.count.toNat + vs.length = d.len.toNat → vs ≠ [] →
    (feedBytes mode d ws.flatten) = ⟨{ d with phase := .receivedAll, count := d.len, payload := d.payload ++ vs }, List.replicate ws.flatten.length none, []⟩ := by
  intro ws vs h
  induction h with
  | nil => simp
  | @cons w v ws vs hw hws ih =>
    intro d hp he hc _
    rw [List.flatten_cons, feedBytes_append, feed_wireOf hw (Dec.hunting_eq_false (by simp [hp])) he]
    have hl : (d.len).toNat < 256 := d.len.isLt
    simp only [List.length_cons] at hc
    have hwl : 1 ≤ w.length := by rcases hw with ⟨rfl, -⟩ | ⟨x, rfl, -⟩ <;> simp
    have hrep : List.replicate (w.length - 1) (none : Option Packet) ++ [none] = List.replicate w.length none := by
      rw [← List.replicate_succ']; congr 1; omega
    cases hws with
    | nil =>
      have : d.count + 1 = d.len := by
        apply BitVec.eq_of_toNat_eq; simp [BitVec.toNat_add] at hc ⊢; omega
      simp only [Dec.phaseArm, hp, Dec.dataArm, this, if_true]
      simpa using hrep
    | @cons w' v' ws vs hw' hws =>
      have hlt : (d.count + 1).toNat = d.count.toNat + 1 := by
        simp [BitVec.toNat_add] at hc ⊢; omega
      have hne : d.count + 1 ≠ d.len := by
        intro h; rw [← h, hlt] at hc; simp at hc; 
      simp only [Dec.phaseArm, hp, Dec.dataArm, hne, if_false]
      have := ih { d with payload := d.payload ++ [v], count := d.count + 1 } (by simp [hp]) he (by simp only [hlt]; simp at hc ⊢; omega) (by simp)
      rw [hp] at this
      rw [this]
      simp only [List.append_assoc, List.singleton_append, Option.toList, List.append_nil, hrep]
      simp [List.length_flatten]

/-- A SYNC, an accepted address and a length below 255, from any state. -/
theorem feed_header {mode : HuntMode} (d : Dec) (n : Byte) (len : Byte) (hn : n = d.localNode ∨ n = 0xFF) (hl : len ≠ 255) :
    ∃ ev, feedBytes mode d ([0xE0] ++ esc n ++ esc len) = ⟨{ d with phase := if len = 0 then .receivedAll else .receivingData, esc := false, count := 0, payload := [], armed := true, node := n, len := len }, List.replicate ([0xE0] ++ esc n ++ esc len).length none, ev⟩ := by
  rw [List.append_assoc, feedBytes_append, feedBytes_cons, decStep_sync]
  rw [feedBytes_append]
  rw [feed_wireOf (wireOf_esc n) (Dec.hunting_eq_false (by simp [Dec.syncArm])) (by simp [Dec.syncArm, Dec.fresh])]
  have e1 : d.syncArm.dec.phaseArm n = ⟨{ d.syncArm.dec with node := n, phase := .gotAddress }, none, none⟩ := by
    exact if_pos hn
  simp only [feedBytes_nil, e1]
  rw [feed_wireOf (wireOf_esc len) (Dec.hunting_eq_false (by simp)) (by simp [Dec.syncArm, Dec.fresh])]
  have e2 : Dec.phaseArm { d.syncArm.dec with node := n, phase := .gotAddress } len = ⟨{ d with phase := if len = 0 then .receivedAll else .receivingData, esc := false, count := 0, payload := [], armed := true, node := n, len := len }, none, none⟩ := by
    exact if_neg hl
  rw [e2]
  have h1 := esc_ne_nil n
  have h2 := esc_ne_nil len
  have l1 : 1 ≤ (esc n).length := List.length_pos_iff.mpr h1
  have l2 : 1 ≤ (esc len).length := List.length_pos_iff.mpr h2
  refine ⟨d.syncArm.event.toList, ?_⟩
  simp only [Fed.mk.injEq, true_and, Option.toList_none, List.append_nil, and_true]
  have : [d.syncArm.out] = List.replicate 1 (none : Option Packet) := rfl
  rw [this, ← List.replicate_succ', ← List.replicate_succ', List.replicate_append_replicate, List.replicate_append_replicate]
  congr 1
  simp; omega

/-- A frame whose values are carried by any wire bytes: the checksum arm decides at its last byte, and nothing before it
gives a packet. -/
theorem feed_frame {mode : HuntMode} (d : Dec) (n : Byte) (ws : List (List Byte)) (vs : List Byte) (wc : List Byte) (c : Byte)
    (hn : n = d.localNode ∨ n = 0xFF) (hl : vs.length ≤ 254) (hws : List.Forall₂ wireOf ws vs) (hwc : wireOf wc c) :
    ∃ ev d', d' = ({ d with phase := .receivedAll, esc := false, count := BitVec.ofNat 8 vs.length, payload := vs, armed := true, node := n, len := BitVec.ofNat 8 vs.length } : Dec) ∧
    feedBytes mode d ([0xE0] ++ esc n ++ esc (lengthField vs) ++ ws.flatten ++ wc) =
      ⟨(d'.chkArm c).dec, List.replicate (([0xE0] ++ esc n ++ esc (lengthField vs) ++ ws.flatten).length + (wc.length - 1)) none ++ [(d'.chkArm c).out], ev⟩ := by
  have hlen : lengthField vs ≠ 255 := by
    intro h
    have := congrArg BitVec.toNat h
    simp [lengthField] at this; omega
  obtain ⟨ev, hh⟩ := feed_header (mode := mode) d n (lengthField vs) hn hlen
  have hpay : ∃ ev', feedBytes mode d ([0xE0] ++ esc n ++ esc (lengthField vs) ++ ws.flatten) =
     ⟨{ d with phase := .receivedAll, esc := false, count := BitVec.ofNat 8 vs.length, payload := vs, armed := true, node := n, len := BitVec.ofNat 8 vs.length }, List.replicate (([0xE0] ++ esc n ++ esc (lengthField vs) ++ ws.flatten).length) none, ev'⟩ := by
    rw [feedBytes_append, hh]
    by_cases hv : vs = []
    · subst hv; cases hws
      refine ⟨ev, ?_⟩
      simp [lengthField]
    · have h0 : lengthField vs ≠ 0 := by
        intro h
        have := congrArg BitVec.toNat h
        have hp : 0 < vs.length := List.length_pos_iff.mpr hv
        simp [lengthField] at this; omega
      simp only [h0, if_false]
      rw [feed_payload ws vs hws _ rfl rfl (by simp [lengthField]; omega) hv]
      refine ⟨ev, ?_⟩
      simp only [Fed.mk.injEq, List.nil_append, List.append_nil, and_true]
      refine ⟨rfl, ?_⟩
      rw [List.replicate_append_replicate]; congr 1; simp only [List.length_append]
  obtain ⟨ev', hpay⟩ := hpay
  generalize hd : ({ d with phase := .receivedAll, esc := false, count := BitVec.ofNat 8 vs.length, payload := vs, armed := true, node := n, len := BitVec.ofNat 8 vs.length } : Dec) = d' at hpay
  have hp : d'.phase = .receivedAll := by rw [← hd]
  have he : d'.esc = false := by rw [← hd]
  rw [feedBytes_append, hpay]
  rw [feed_wireOf hwc (Dec.hunting_eq_false (by simp [hp])) he]
  refine ⟨ev' ++ (d'.phaseArm c).event.toList, d', rfl, ?_⟩
  have : d'.phaseArm c = d'.chkArm c := by simp [Dec.phaseArm, hp]
  simp only [this, Fed.mk.injEq, true_and, and_true]
  rw [← List.append_assoc, List.replicate_append_replicate]

theorem forall_esc (p : List Byte) : List.Forall₂ wireOf (p.map esc) p := by
  induction p with
  | nil => exact .nil
  | cons a p ih => exact .cons (wireOf_esc a) ih

end Sys2Proof.Machine
end

