-- ==== Sys2Proof/Tests/Slice0.lean ====
section
/-! SUPPORT. The model's own tests: what WellFormed refuses, every constructor's word written out from the spec's encoding,
small steps whose results 95_test_vectors.md gives (its V numbers stand in the names' comments), and for every statement
with hypotheses a state and operands that meet them. -/

namespace Sys2Proof.Tests

open Sys2Proof Sys2Proof.Machine

/-! ## Small states -/

/-- The decoder of the test vectors: local node 1, at power-on. -/
def dec1 : Dec := ⟨.waitSync, false, 0, 0, 0, [], false, 1⟩

def base : State := State.reset.withDec dec1

/-- The decoder in a frame: node 1, a length, the payload so far. -/
def inFrame (phase : Phase) (esc : Bool) (len : Byte) (payload : List Byte) : State :=
  base.withDec ⟨phase, esc, BitVec.ofNat 8 payload.length, 1, len, payload, true, 1⟩

/-- A session on a slot, with responses listed. -/
def inSession (slot : Fin 2) (answers : List Byte) : State :=
  (base.withBus { Bus.reset with session := some slot, sel := Bus.reset.sel.set slot false }).withDev
    ⟨answers, 0, [], []⟩

/-- An operation on slot 0, sector 5, before transfer k. -/
def underway (kind : OpKind) (k : Nat) (id0 chk rx : Byte) (answers : List Byte) : State :=
  (inSession 0 answers).withBus { (inSession 0 answers).bus with op := some ⟨kind, 5, k, id0, chk, rx⟩ }

/-- Responses for an operation from an idle bus; the peripheral gives an ACK during every exchange. -/
def answering (answers : List Byte) : State :=
  base.withDev ⟨answers, 0, (List.range 280).map (fun k => k % 2 == 1), []⟩

/-- In = [00, 01, ..., 7F] of V46a. -/
def ramp : Buffers := { base.bufs with inBuf := Vector.ofFn (fun k => BitVec.ofNat 8 k.val) }

def given (q : List Input) : State := base.withInputs q

/-- The timing of 95_test_vectors.md P3: exchanges of 16 microseconds, timeouts of 100, no pre-delay. -/
def timing : BusParams := ⟨16, fun _ => ⟨100, 0⟩, fun _ => ⟨100, 0⟩, fun _ => ⟨100, 0⟩, fun _ => ⟨100, 0⟩⟩

/-! ## WellFormed -/

theorem test_wf_refuses_payload_of_65536 : (Instr.encSend 1 (List.replicate 65536 0)).wf = false := by
  rw [Instr.wf, List.length_replicate]
  decide

theorem test_wf_admits_payload_of_65535 : (Instr.encSend 1 (List.replicate 65535 0)).wf = true := by
  rw [Instr.wf, List.length_replicate]
  decide

theorem test_wf_refuses_sync_as_escaped_data : (Instr.escapedData 0xE0).wf = false := by decide

theorem test_wf_refuses_sync_as_data : (Instr.data 0xE0).wf = false := by decide

theorem test_wf_refuses_escape_as_data : (Instr.data 0xD0).wf = false := by decide

theorem test_wf_admits_the_bytes_beside_them :
    ((Instr.escapedData 0xD0).wf && (Instr.data 0xE1).wf && (Instr.data 0xCF).wf) = true := by decide

/-! ## Decoding, from R78, R81 to R83, R85, R90 and R205 -/

theorem test_decode_enc_send : decode .enc false [0x10, 0xFF, 0x00, 0x02, 0xD0, 0xE0] = .ok (.encSend 0xFF [0xD0, 0xE0]) [] := by
  decide

theorem test_decode_dec_feed : decode .dec false [0x20, 0xD0] = .ok (.decFeed 0xD0) [] := by decide

theorem test_decode_dec_poll : decode .dec false [0x21] = .ok .decPoll [] := by decide

theorem test_decode_dec_set_node : decode .dec false [0x23, 31] = .ok (.decSetNode 31) [] := by decide

theorem test_decode_bus_begin : decode .bus false [0x30, 1] = .ok (.busBegin 1) [] := by decide

theorem test_decode_bus_xfer :
    decode .bus false [0x31, 0x81, 0x00, 0x00, 0x13, 0x88, 0x01, 0x02, 0x03, 0x04] = .ok (.busXfer 0x81 5000 0x01020304) [] := by
  decide

theorem test_decode_bus_end : decode .bus false [0x32] = .ok .busEnd [] := by decide

theorem test_decode_mc_read : decode .bus false [0x40, 0, 0x00, 0x05] = .ok (.mcRead 0 5) [] := by decide

theorem test_decode_mc_probe : decode .bus false [0x41, 1, 0x03, 0xFF] = .ok (.mcProbe 1 1023) [] := by decide

theorem test_decode_mc_write : decode .bus false [0x42, 0, 0x01, 0x23] = .ok (.mcWrite 0 0x123) [] := by decide

theorem test_decode_pad_poll : decode .bus false [0x43, 1] = .ok (.padPoll 1) [] := by decide

theorem test_decode_sync :
    decode .wire false [0xE0] = .ok .sync [] ∧ decode .wire true [0xE0] = .ok .sync [] := by decide

theorem test_decode_escape : decode .wire false [0xD0] = .ok .escape [] := by decide

theorem test_decode_escaped_data :
    decode .wire true [0xDF] = .ok (.escapedData 0xDF) [] ∧ decode .wire true [0xD0] = .ok (.escapedData 0xD0) [] := by decide

theorem test_decode_data : decode .wire false [0xDF] = .ok (.data 0xDF) [] := by decide

theorem test_decode_sel_pad : decode .lineOut false [0x01] = .ok .selPad [] := by decide

theorem test_decode_sel_mc : decode .lineOut false [0x81] = .ok .selMc [] := by decide

theorem test_decode_cmd_read_r : decode .lineOut false [0x52] = .ok .cmdReadR [] := by decide

theorem test_decode_cmd_write_w : decode .lineOut false [0x57] = .ok .cmdWriteW [] := by decide

theorem test_decode_cmd_poll_b : decode .lineOut false [0x42] = .ok .cmdPollB [] := by decide

theorem test_decode_filler : decode .lineOut false [0x00] = .ok .filler [] := by decide

theorem test_decode_rsp_fail : decode .mcIn false [0xFF] = .ok .rspFail [] := by decide

theorem test_decode_mc_id0 : decode .mcIn false [0x5A] = .ok .mcId0 [] := by decide

theorem test_decode_mc_ack1 : decode .mcIn false [0x5C] = .ok .mcAck1 [] := by decide

theorem test_decode_st_good : decode .mcIn false [0x47] = .ok .stGood [] := by decide

theorem test_decode_rsp_badchk : decode .mcIn false [0x4E] = .ok .rspBadchk [] := by decide

theorem test_decode_pad_id0 : decode .padIn false [0x41] = .ok .padId0 [] := by decide

theorem test_decode_pad_id1 : decode .padIn false [0x5A] = .ok .padId1 [] := by decide

/-- R90: code 0x22 is unassigned; R91: a listed code is undefined at another block. -/
theorem test_decode_refuses_undefined :
    decode .dec false [0x22] = .bad (.undefinedCmd 0x22) ∧ decode .enc false [0x20, 0] = .bad (.undefinedCmd 0x20) ∧
      decode .bus false [0x44] = .bad (.undefinedCmd 0x44) := by decide

/-- Operand bytes that are not all there (log 1). -/
theorem test_decode_refuses_truncated :
    decode .enc false [0x10, 1, 0, 2, 0x10] = .bad (.truncated 0x10) ∧ decode .bus false [0x40, 0, 3] = .bad (.truncated 0x40) := by
  decide

/-- A table word, where rows share a byte: the command comes first (log 2). -/
theorem test_table_word :
    decodeTableWord 8 0x42 = some (.mcWrite 0 0) ∧ decodeTableWord 8 0xE0 = some .sync ∧
      decodeTableWord 8 0x81 = some .selMc ∧ decodeTableWord 8 0x5C = some .mcAck1 ∧
      decodeTableWord 8 0x33 = some (.data 0x33) := by decide

/-! ## packet_encoder -/

/-- V7. -/
theorem test_enc_send_escapes_checksum :
    (nextOf (exec (.encSend 1 [0xDF]) base)).map (fun t => (t.chan.tx, t.results)) =
      some (([0xE0, 0x01, 0x01, 0xDF, 0xD0, 0xDF] : List Byte).map .byte ++ [.flush], [.unit]) := by decide

/-- V9d. -/
theorem test_enc_send_checks_node_first : refusalIn (exec (.encSend 0x40 (List.replicate 255 0)) base) = some .node := by
  decide

/-! ## packet_decoder -/

/-- V13, its last byte. -/
theorem test_dec_feed_unescapes_checksum :
    (nextOf (exec (.decFeed 0xDF) (inFrame .receivedAll true 1 [0xDF]))).map (fun t => t.results) =
      some [.packet (some ⟨1, [0xDF], 0xE0⟩)] := by decide

/-- V24, the second SYNC. -/
theorem test_dec_feed_abandons_frame :
    (nextOf (exec (.decFeed 0xE0) (inFrame .receivingData false 5 [0x10, 0x20]))).map (fun t => (t.dec, t.events)) =
      some (⟨.waitSync, false, 0, 1, 5, [], true, 1⟩, [.frameAbandoned .receivingData]) := by decide

/-- V19, the first poll. -/
theorem test_dec_poll_stops_at_packet :
    (nextOf (exec .decPoll (base.withChan ⟨[0xE0, 0x01, 0x01, 0x10, 0x11, 0xE0, 0x01, 0x00, 0x01], []⟩))).map
      (fun t => (t.results, t.chan.rx)) =
      some ([.packet (some ⟨1, [0x10], 0x11⟩)], [0xE0, 0x01, 0x00, 0x01]) := by decide

/-- V29, the first poll. -/
theorem test_dec_poll_keeps_partial_frame :
    (nextOf (exec .decPoll (base.withChan ⟨[0xE0, 0x01, 0x01], []⟩))).map (fun t => (t.dec, t.results)) =
      some (⟨.receivingData, false, 0, 1, 1, [], true, 1⟩, [.packet none]) := by decide

/-- V28, run c. -/
theorem test_dec_set_node_keeps_parse :
    (nextOf (exec (.decSetNode 3) (inFrame .receivingData true 2 [0x10]))).map (fun t => t.dec) =
      some ⟨.receivingData, true, 1, 1, 2, [0x10], true, 3⟩ := by decide

/-- V28, run b. -/
theorem test_dec_set_node_refuses_broadcast : refusalIn (exec (.decSetNode 0xFF) base) = some .node := by decide

/-- V26 and V26s: after the drop, LITERAL takes the next byte as an address, STRICT ignores it. -/
theorem test_hunt_modes :
    (decStep .literal dec1 0x01).dec.phase = .gotAddress ∧ decStep .strict dec1 0x01 = ⟨dec1, none, none⟩ := by decide

/-- V20: a length of 255. -/
theorem test_data_drops_length_255 :
    (nextOf (exec (.data 0xFF) (inFrame .gotAddress false 0 []))).map (fun t => (t.dec.phase, t.dec.armed, t.events)) =
      some (.waitSync, false, [.badLength]) := by decide

/-- V16: a length of 0. -/
theorem test_data_length_0 :
    (nextOf (exec (.data 0x00) (inFrame .gotAddress false 9 []))).map (fun t => (t.dec.phase, t.dec.len)) =
      some (.receivedAll, 0) := by decide

/-- V23: a SYNC behind a marker. -/
theorem test_sync_discards_escape :
    (nextOf (exec .sync (inFrame .receivingData true 1 []))).map (fun t => (t.dec.phase, t.dec.esc, t.dec.armed)) =
      some (.waitSync, false, true) := by decide

/-- V12, after the marker. -/
theorem test_escape_sets_flag :
    (nextOf (exec .escape (inFrame .receivingData false 1 []))).map (fun t => (t.dec.phase, t.dec.esc, t.dec.payload)) =
      some (.receivingData, true, []) := by decide

/-- V22: ESC FF gives 00. -/
theorem test_escaped_data_wraps :
    (nextOf (exec (.escapedData 0xFF) (inFrame .receivingData true 1 []))).map
      (fun t => (t.dec.phase, t.dec.esc, t.dec.payload)) = some (.receivedAll, false, [0x00]) := by decide

/-- V21: ESC ESC gives D1. -/
theorem test_escaped_data_escape :
    (nextOf (exec (.escapedData 0xD0) (inFrame .receivingData true 1 []))).map (fun t => t.dec.payload) = some [0xD1] := by
  decide

/-! ## psx_bus_controller: the transfer core -/

/-- V36, run f. -/
theorem test_bus_begin_selects_slot :
    (nextOf (exec (.busBegin 1) base)).map (fun t => (t.bus.sel.toList, t.bus.session, t.bus.compat)) =
      some ([true, false], some 1, false) := by decide

/-- V36, run d. -/
theorem test_bus_begin_refuses_open_session : refusalIn (exec (.busBegin 0) (inSession 1 [])) = some .sessionOpen := by decide

/-- V30: an edge 10 microseconds behind the exchange. -/
theorem test_bus_xfer_waits_for_edge :
    (nextOf (busXfer 16 0x81 ⟨50, 0⟩ ((inSession 0 []).withDev ⟨[0x5A], 0, List.replicate 11 false ++ [true], []⟩))).map
      (fun t => (t.results, t.bus.now, t.bus.compat, t.bus.ack)) = some ([.byte 0x5A], 26, false, true) := by decide

set_option maxRecDepth 40000 in
/-- V34: an edge in the pre-delay is erased. -/
theorem test_bus_xfer_erases_early_edge :
    (nextOf (busXfer 16 0x00 ⟨7, 20⟩ ((inSession 0 []).withDev ⟨[0x5A], 0, [true], []⟩))).map
      (fun t => (t.bus.now, t.bus.compat, t.events)) = some (3036, true, [.ackTimeout]) := by decide

/-- V38. -/
theorem test_bus_end_deselects :
    (nextOf (exec .busEnd (inSession 0 []))).map (fun t => (t.bus.sel.toList, t.bus.session)) =
      some ([true, true], none) := by decide

/-- V36, run b. -/
theorem test_bus_end_refuses_no_session : refusalIn (exec .busEnd base) = some .noSession := by decide

/-! ## psx_bus_controller: the operations -/

set_option maxRecDepth 40000 in
/-- V52. -/
theorem test_mc_read_sector :
    (nextOf (operate timing .mcRead 1 1023 (answering ([0x00, 0x08, 0x5A, 0x5D, 0x00, 0x00, 0x5C, 0x5D, 0x03, 0xFF] ++
      (List.range 128).map (BitVec.ofNat 8) ++ [0xFC, 0x47])))).map
      (fun t => (t.results, t.bufs.outBuf.toList, t.dev.drawn)) =
      some ([.bool true], (List.range 128).map (BitVec.ofNat 8), 140) := by decide

set_option maxRecDepth 40000 in
/-- V49. -/
theorem test_mc_read_bad_ack :
    (nextOf (operate timing .mcRead 0 5 (answering [0x00, 0x08, 0x5A, 0x5D, 0x00, 0x00, 0xFF]))).map
      (fun t => (t.results, t.dev.drawn, t.bus.sel.toList)) = some ([.bool false], 7, [true, true]) := by decide

set_option maxRecDepth 40000 in
/-- V44c. -/
theorem test_mc_probe_second_id_untested :
    (nextOf (operate timing .mcProbe 0 0 (answering [0x00, 0x08, 0x5A, 0x00]))).map (fun t => t.results) =
      some [.bool true] := by decide

set_option maxRecDepth 40000 in
/-- V44b. -/
theorem test_mc_probe_absent :
    (nextOf (operate timing .mcProbe 1 0 (answering [0x00, 0xFF]))).map (fun t => (t.results, t.dev.drawn)) =
      some ([.bool false], 2) := by decide

set_option maxRecDepth 40000 in
/-- V46a, its checksum byte: 0x22 at transfer 135. -/
theorem test_mc_write_checksum :
    (nextOf (operate timing .mcWrite 0 0x123 ((answering ([0x00, 0x08, 0x5A, 0x5D] ++ List.replicate 131 0 ++
      [0x5C, 0x5D, 0x47])).withBufs ramp))).map (fun t => (t.results, (t.dev.seen.drop 135).head?, t.dev.drawn)) =
      some ([.bool true], some (.exchange (shiftCycles 0x22 0)), 138) := by decide

set_option maxRecDepth 40000 in
/-- V46c. -/
theorem test_mc_write_absent :
    (nextOf (operate timing .mcWrite 0 5 (answering [0x00, 0xFF]))).map (fun t => (t.results, t.events.getLast?)) =
      some ([.bool false], some .devAbsent) := by decide

set_option maxRecDepth 40000 in
/-- V47, with the time of P3. -/
theorem test_pad_poll_connected :
    (nextOf (operate timing .padPoll 0 0 (base.withDev ⟨[0xFF, 0x41, 0x41, 0x5A, 0xFE, 0xFF], 0, [], []⟩))).map
      (fun t => (t.results, t.bufs.padBuf.toList, t.bus.now)) =
      some ([.bool true], [0xFE, 0xFF], 3596) := by decide

set_option maxRecDepth 40000 in
/-- V48b. -/
theorem test_pad_poll_reversed_signature :
    (nextOf (operate timing .padPoll 0 0 ((answering [0xFF, 0x41, 0x5A, 0x41]).withBufs
      { base.bufs with padBuf := Vector.replicate 2 0x12 }))).map (fun t => (t.results, t.bufs.padBuf.toList, t.dev.drawn)) =
      some ([.bool false], [0x00, 0x00], 4) := by decide

/-! ## The byte codes of the peripheral bus -/

theorem test_sel_pad_first_transfer :
    (nextOf (exec .selPad (underway .padPoll 1 0 0 0 [0xFF]))).map (fun t => (t.bus.op.map OpRun.k, t.dev.seen)) =
      some (some 2, [.exchange (shiftCycles 0x01 0xFF)]) := by decide

theorem test_sel_mc_first_transfer :
    (nextOf (exec .selMc (underway .mcRead 1 0 0 0 [0xFF]))).map (fun t => t.bus.op.map OpRun.k) = some (some 2) := by
  decide

theorem test_cmd_read_r_absent :
    (nextOf (exec .cmdReadR (underway .mcProbe 2 0 0 0 [0xFF]))).map (fun t => (t.results, t.bus.session)) =
      some ([.bool false], none) := by decide

theorem test_cmd_write_w_is_not_read : refusalIn (exec .cmdWriteW (underway .mcRead 2 0 0 0 [])) = some .busy := by decide

theorem test_cmd_poll_b_untested_response :
    (nextOf (exec .cmdPollB (underway .padPoll 2 0 0 0 [0xFF]))).map (fun t => t.bus.op.map OpRun.k) = some (some 3) := by
  decide

theorem test_filler_in_session :
    (nextOf (exec .filler (inSession 1 [0x47]))).map (fun t => t.results) = some [.byte 0x47] := by decide

theorem test_filler_outside_session : refusalIn (exec .filler base) = some .noSession := by decide

theorem test_rsp_fail_ends_operation :
    (nextOf (exec .rspFail (underway .mcWrite 2 0 0 0 []))).map (fun t => (t.results, t.bus.op)) =
      some ([.bool false], none) := by decide

theorem test_mc_id0_seen_by_probe :
    (nextOf (exec .mcId0 (underway .mcProbe 3 0 0 0 []))).map (fun t => t.bus.op.map OpRun.id0) = some (some 0x5A) := by
  decide

theorem test_mc_ack1_goes_on :
    (nextOf (exec .mcAck1 (underway .mcRead 7 0 0 0 []))).map (fun t => t.bus.op.map OpRun.k) = some (some 8) := by decide

theorem test_st_good_ends_write :
    (nextOf (exec .stGood (underway .mcWrite 138 0 0 0 []))).map (fun t => t.results) = some [.bool true] := by decide

theorem test_rsp_badchk_ends_write :
    (nextOf (exec .rspBadchk (underway .mcWrite 138 0 0 0 []))).map (fun t => t.results) = some [.bool false] := by decide

theorem test_pad_id0_goes_on :
    (nextOf (exec .padId0 (underway .padPoll 3 0 0 0 []))).map (fun t => t.bus.op.map OpRun.id0) = some (some 0x41) := by
  decide

theorem test_pad_id1_goes_on :
    (nextOf (exec .padId1 (underway .padPoll 4 0x41 0 0 []))).map (fun t => t.bus.op.map OpRun.k) = some (some 5) := by
  decide

/-! ## A step from reset -/

theorem test_first_step_runs_fetched_word :
    (nextOf (step (State.reset.withFetchWord 8 0x30))).map (fun t => t.bus.session) = some (some 0) := by decide

/-! ## Witnesses: a state and operands that meet each statement's hypotheses, one for each of its clauses -/

/-- The armed decoder, behind a SYNC. -/
def armed : Dec := { dec1 with armed := true }

theorem witness_DecodeReadsBackEncode :
    (Instr.escapedData 0xD0).wf = true ∧ (Instr.escapedData 0xD0).escContext = true ∧ (Instr.data 0xE1).wf = true ∧
      (Instr.data 0xE1).escContext = false ∧ (Instr.mcRead 1 1023).wf = true ∧ (Instr.mcRead 1 1023).port ≠ .wire := by decide

theorem witness_UnlistedCodesAreRefused :
    (given [.request .whole .enc [0x20]]).inputs = [.request .whole .enc [0x20]] ∧ (0x20 : Byte) ∉ [(0x10 : Byte)] ∧
      (given [.request .overlapping .dec [0x22]]).inputs = [.request .overlapping .dec [0x22]] ∧
      (0x22 : Byte) ∉ ([0x20, 0x21, 0x23] : List Byte) ∧
      (given [.request .turnwise .bus [0x44]]).inputs = [.request .turnwise .bus [0x44]] ∧
      (0x44 : Byte) ∉ ([0x30, 0x31, 0x32, 0x40, 0x41, 0x42, 0x43] : List Byte) := by decide

theorem witness_StepRunsDecodedInstruction :
    (given [.request .whole .dec [0x21, 0x21]]).inputs = [.request .whole .dec [0x21, 0x21]] ∧
      decode .dec (given []).dec.esc [0x21, 0x21] = .ok .decPoll [0x21] ∧
      decode .dec (given []).dec.esc [0x21] = .ok .decPoll [] := by decide

theorem witness_BusyBlockRefuses :
    (given [.request .overlapping .bus [0x32]]).inputs = [.request .overlapping .bus [0x32]] ∧
      decode .bus (given []).dec.esc [0x32] = .ok .busEnd [] ∧ Instr.busEnd.port = .bus ∧
      (underway .padPoll 1 0 0 0 []).bus.op.isSome = true := by decide

theorem witness_EscapeCode : (0xDF : Byte) ≠ 0xE0 ∧ (0xDF : Byte) ≠ 0xD0 ∧ (0xE1 : Byte) ≠ 0xE0 ∧ (0xE1 : Byte) ≠ 0xD0 := by
  decide

/-- For EncSendWritesFrame, FrameMarkersAreUnique and FrameSize. -/
theorem witness_EncSendWritesFrame :
    ((31 : Byte) ≤ 31 ∨ (31 : Byte) = 0xFF) ∧ ((0xFF : Byte) ≤ 31 ∨ (0xFF : Byte) = 0xFF) ∧
      ¬((32 : Byte) ≤ 31 ∨ (32 : Byte) = 0xFF) ∧ (List.replicate 254 (0 : Byte)).length ≤ 254 ∧
      254 < (List.replicate 255 (0 : Byte)).length := by
  simp only [List.length_replicate]
  decide

theorem witness_FeedRunsOneDecStep :
    (given [.request .overlapping .dec [0x20, 0x10]]).inputs = [.request .overlapping .dec [0x20, 0x10]] ∧
      (Instr.decFeed 0xE0 = .decFeed 0xE0) ∧ (Instr.sync = .sync ∧ (0xE0 : Byte) = 0xE0) ∧
      (Instr.escape = .escape ∧ (0xD0 : Byte) = 0xD0) ∧ Instr.escapedData 0xFF = .escapedData 0xFF ∧
      Instr.data 0 = .data 0 := by decide

theorem witness_StrictHuntIgnoresBytes : dec1.phase = .waitSync ∧ dec1.armed = false ∧ (0xD0 : Byte) ≠ 0xE0 := by decide

theorem witness_EscapeMarkerIsPending :
    ((inFrame .gotAddress false 0 []).dec.phase ≠ .waitSync ∧ (inFrame .gotAddress false 0 []).dec.esc = false) ∧
      (armed.armed = true ∧ armed.esc = false) ∧ (HuntMode.literal = .literal ∧ dec1.esc = false) := by decide

/-- The local node number, broadcast behind a marker, and another node. -/
theorem witness_AddressFilter :
    armed.phase = .waitSync ∧ armed.armed = true ∧
      ((1 : Byte) ≠ 0xE0 ∧ ¬(armed.esc = false ∧ (1 : Byte) = 0xD0) ∧ (1 : Byte) = (if armed.esc then 1 + 1 else 1) ∧
        ((1 : Byte) = armed.localNode ∨ (1 : Byte) = 0xFF)) ∧
      ((0xFE : Byte) ≠ 0xE0 ∧ (0xFF : Byte) = (if armed.markEscape.esc then 0xFE + 1 else 0xFE) ∧
        ((0xFF : Byte) = armed.localNode ∨ (0xFF : Byte) = 0xFF)) ∧
      ((2 : Byte) ≠ 0xE0 ∧ ¬(armed.esc = false ∧ (2 : Byte) = 0xD0) ∧ (2 : Byte) = (if armed.esc then 2 + 1 else 2) ∧
        ¬((2 : Byte) = armed.localNode ∨ (2 : Byte) = 0xFF)) := by decide

/-- Lengths 255, 0, 1 and 254. -/
theorem witness_LengthField :
    (inFrame .gotAddress false 0 []).dec.phase = .gotAddress ∧ (inFrame .gotAddress false 0 []).dec.esc = false ∧
      (∀ r : Byte, (r = 255 ∨ r = 0 ∨ r = 1 ∨ r = 254) → r ≠ 0xE0 ∧ r ≠ 0xD0) ∧
      (1 : Byte) ≠ 0 ∧ (1 : Byte) ≠ 255 ∧ (254 : Byte) ≠ 0 ∧ (254 : Byte) ≠ 255 := by decide

theorem witness_PayloadByte :
    (inFrame .receivingData false 2 [0x10]).dec.phase = .receivingData ∧ (0x10 : Byte) ≠ 0xE0 ∧
      ¬((inFrame .receivingData false 2 [0x10]).dec.esc = false ∧ (0x10 : Byte) = 0xD0) ∧
      (inFrame .receivingData true 3 [0x10]).dec.phase = .receivingData ∧ (0xD0 : Byte) ≠ 0xE0 ∧
      ¬((inFrame .receivingData true 3 [0x10]).dec.esc = false ∧ (0xD0 : Byte) = 0xD0) ∧
      (inFrame .receivingData false 2 [0x10]).dec.Inv :=
  ⟨by decide, by decide, by decide, by decide, by decide, by decide,
    by decide, rfl, show (1 : Byte) < 2 by decide, show (2 : Byte) ≤ 254 by decide, by decide⟩

/-- The checksum that matches, one that does not, and one behind a marker. -/
theorem witness_ChecksumByte :
    (inFrame .receivedAll false 1 [0x10]).dec.phase = .receivedAll ∧ (0x11 : Byte) ≠ 0xE0 ∧ (0x11 : Byte) ≠ 0xD0 ∧
      (0x11 : Byte) = checksum 1 [0x10] ∧ (0x12 : Byte) ≠ 0xE0 ∧ (0x12 : Byte) ≠ 0xD0 ∧ (0x12 : Byte) ≠ checksum 1 [0x10] ∧
      (inFrame .receivedAll true 1 [0xDF]).dec.phase = .receivedAll ∧ (0xDF : Byte) + 1 = checksum 1 [0xDF] := by decide

theorem witness_EmittedPacketsAreValid :
    (inFrame .receivedAll false 1 [0x10]).dec.Inv ∧
      (decStep .literal (inFrame .receivedAll false 1 [0x10]).dec 0x11).out = some ⟨1, [0x10], 0x11⟩ :=
  ⟨⟨by decide, rfl, rfl, show (1 : Byte) ≤ 254 by decide, by decide⟩, by decide⟩

theorem witness_PollConsumesUpToFirstPacket :
    (given [.request .overlapping .dec [0x21]]).inputs = [.request .overlapping .dec [0x21]] := by decide

theorem witness_ChunkingDoesNotMatter : base.chan.rx = [] := by decide

/-- For FrameRoundTrip and DroppedBytesLeaveNothing. -/
theorem witness_FrameRoundTrip :
    ((1 : Byte) = dec1.localNode ∨ (1 : Byte) = 0xFF) ∧ ((0xFF : Byte) = dec1.localNode ∨ (0xFF : Byte) = 0xFF) ∧
      (List.replicate 254 (0 : Byte)).length ≤ 254 := by
  simp only [List.length_replicate]
  decide

/-- For StrictDropsOtherNodes and LiteralDropsOtherNodes. -/
theorem witness_StrictDropsOtherNodes :
    dec1.localNode ≤ 31 ∧ ((5 : Byte) ≤ 31 ∨ (5 : Byte) = 0xFF) ∧ (5 : Byte) ≠ dec1.localNode ∧ (5 : Byte) ≠ 0xFF ∧
      ([0x10] : List Byte).length ≤ 254 := by decide

/-- An unescaped payload byte, an escaped one, and a checksum. -/
theorem witness_TamperedFramesGiveNoPacket :
    ((1 : Byte) = dec1.localNode ∨ (1 : Byte) = 0xFF) ∧ (0xE1 : Byte) ≠ 0xE0 ∧ (0xE1 : Byte) ≠ 0xD0 ∧
      (0xE1 : Byte) = flipBit ((esc 0x61).getLastD 0) 7 ∧ (0xDE : Byte) ≠ 0xE0 ∧ (0xDE : Byte) ≠ 0xD0 ∧
      (0xDE : Byte) = flipBit ((esc 0xE0).getLastD 0) 0 ∧ (0x10 : Byte) ≠ 0xE0 ∧ (0x10 : Byte) ≠ 0xD0 ∧
      (0x10 : Byte) = flipBit ((esc (checksum 1 [0x10])).getLastD 0) 0 ∧
      ([0x10] ++ [0x61] ++ [0x20] : List Byte).length ≤ 254 := by decide

theorem witness_NonCanonicalEscapesAreAccepted :
    (inFrame .receivingData false 1 []).dec.phase ≠ .waitSync ∧ (inFrame .receivingData false 1 []).dec.esc = false ∧
      (0x10 : Byte) ≠ 0xE0 ∧ (0x10 : Byte) ≠ 0xD0 ∧ (0x10 : Byte) ≠ 0xE1 := by decide

theorem witness_SetNodeWritesLocalNode :
    (given [.request .overlapping .dec [0x23, 5]]).inputs = [.request .overlapping .dec [0x23, 5]] ∧
      (31 : Byte) ≤ 31 ∧ (31 : Byte) < 32 := by decide

/-- For OnlySetNodeChangesLocalNode, BlocksDoNotInterfere, BuffersWrittenOnlyByTheirOperation and ClockNeverRunsBack. -/
theorem witness_next_state_of_an_instruction :
    (∃ t, exec (.encSend 1 []) base = .next t) ∧ (Instr.encSend 1 []).port = .enc ∧
      (∃ t, exec .decPoll base = .next t) ∧ (∀ node, Instr.decPoll ≠ .decSetNode node) ∧ Instr.decPoll.port = .dec ∧
      (∃ t, exec .busEnd (inSession 0 []) = .next t) ∧ Instr.busEnd.port = .bus ∧
      (∀ slot sector, Instr.busEnd ≠ .mcRead slot sector) ∧ (∀ slot, Instr.busEnd ≠ .padPoll slot) ∧
      (inSession 0 []).bus.op = none :=
  ⟨⟨_, rfl⟩, rfl, ⟨_, rfl⟩, nofun, rfl, ⟨_, rfl⟩, rfl, nofun, nofun, rfl⟩

theorem witness_BusBeginOpensSession :
    base.bus.op = none ∧ base.bus.session = none ∧ (0 : Byte).toNat = (0 : Fin 2).val ∧ (1 : Byte).toNat = (1 : Fin 2).val ∧
      (1 : Byte) < 2 ∧ (1 : Byte) ≤ 1 ∧ (inSession 0 []).bus.op = none ∧ (inSession 0 []).bus.session.isSome = true := by decide

/-- For BusEndClosesSession and BusXferReturnsResponse. -/
theorem witness_BusEndClosesSession :
    (inSession 1 []).bus.op = none ∧ (inSession 1 []).bus.session = some 1 ∧ base.bus.op = none ∧
      base.bus.session = none := by decide

/-- No edge; the first edge before the second read; a flag that is set. -/
theorem witness_AckWaitDuration :
    quiet [] 3001 ∧ firstEdgeAt [false, true] 1 ∧ (1 : Nat) ≤ 1 ∧ (AckView.mk true [] 0).ack = true :=
  ⟨fun _ _ => rfl, ⟨fun k hk => by obtain rfl : k = 0 := by omega
                                   rfl, rfl⟩, by decide, rfl⟩

theorem witness_BusXferTiming :
    (∃ t, exec (.busXfer 0 7 20) ((inSession 0 []).withDev ⟨[], 0, [true], []⟩) = .next t) ∧
      quiet ([true] : List Bool).tail 3001 ∧
      (∃ t, exec (.busXfer 0 7 20) ((inSession 0 []).withDev ⟨[], 0, [false, true], []⟩) = .next t) ∧
      firstEdgeAt ([false, true] : List Bool).tail 0 ∧ (0 : Nat) ≤ 3000 :=
  ⟨⟨_, rfl⟩, fun _ _ => rfl, ⟨_, rfl⟩, ⟨fun k hk => by omega, rfl⟩, by decide⟩

theorem witness_CompatIsSticky :
    (∃ t, exec .busEnd ((inSession 0 []).withBus { (inSession 0 []).bus with compat := true }) = .next t) ∧
      (∀ slot, Instr.busEnd ≠ .busBegin slot ∧ Instr.busEnd ≠ .padPoll slot) ∧
      (∀ slot sector, Instr.busEnd ≠ .mcRead slot sector ∧ Instr.busEnd ≠ .mcProbe slot sector ∧
        Instr.busEnd ≠ .mcWrite slot sector) :=
  ⟨⟨_, rfl⟩, fun _ => ⟨nofun, nofun⟩, fun _ _ => ⟨nofun, nofun, nofun⟩⟩

theorem witness_FallbackWithoutAck :
    (inSession 0 []).bus.op = none ∧ (inSession 0 []).bus.session.isSome = true ∧ (inSession 0 []).bus.compat = false ∧
      (inSession 0 []).dev.ackEdges = [] := by decide

/-- Two states that differ, and only in time. -/
theorem witness_AckTimingIsUnobservable :
    (base.withBus { base.bus with ack := true, now := 7 }).untimed = base.untimed ∧
      base.withBus { base.bus with ack := true, now := 7 } ≠ base :=
  ⟨rfl, fun h => absurd (congrArg (fun s : State => s.bus.now) h) (by decide)⟩

theorem witness_AckEdgeSetsFlag :
    (given [.ackEdge Config.ackEdge]).inputs = [.ackEdge Config.ackEdge] ∧
      ∃ e, e ≠ Config.ackEdge ∧ (given [.ackEdge e]).inputs = [.ackEdge e] := by
  refine ⟨rfl, ?_⟩
  cases h : Config.ackEdge
  · exact ⟨.rising, by simp, rfl⟩
  · exact ⟨.falling, by simp, rfl⟩

theorem witness_OperationRefusals :
    base.bus.op = none ∧ (1 : Byte) < 2 ∧ (1 : Byte) ≤ 1 ∧ (1023 : U16) < 1024 ∧ (1023 : U16) ≤ 1023 ∧
      (inSession 0 []).bus.session.isSome = true ∧ (inSession 0 []).bus.op = none := by decide

/-- For McReadReadsSector, McProbeTestsFirstId, McWriteWritesSector and PadPollReadsButtons. -/
theorem witness_operations :
    base.bus.op = none ∧ base.bus.session = none ∧ (1 : Byte).toNat = (1 : Fin 2).val ∧ (1023 : U16) ≤ 1023 := by decide

theorem witness_OperationTimeWithoutAck :
    base.dev.ackEdges = [] ∧ ∃ t, operate timing .padPoll 1 0 base = .next t :=
  ⟨rfl, _, operate_idle (by decide) (by decide) (by decide) (.inl rfl)⟩

theorem witness_TurnwiseEqualsWhole :
    decode .bus false [0x43, 1] = .ok (.padPoll 1) [] ∧ ∃ t, exec (.padPoll 1) { base with inputs := [] } = .next t :=
  ⟨rfl, _, operate_idle (p := Config.busParams) (kind := .padPoll) (slot := 1) (sector := 0)
    (s := { base with inputs := [] }) rfl rfl (by decide) (.inl rfl)⟩

theorem witness_BuffersAreStableDuringOperation :
    ((underway .padPoll 1 0 0 0 []).withInputs [.setPad base.bufs.padBuf]).bus.op.isSome = true ∧
      ((underway .padPoll 1 0 0 0 []).withInputs [.setPad base.bufs.padBuf]).inputs = [.setPad base.bufs.padBuf] ∧
      (given [.setOut base.bufs.outBuf]).bus.op = none ∧
      (given [.setOut base.bufs.outBuf]).inputs = [.setOut base.bufs.outBuf] ∧
      (given [.setIn base.bufs.inBuf]).inputs = [.setIn base.bufs.inBuf] ∧
      (given [.setPad base.bufs.padBuf]).inputs = [.setPad base.bufs.padBuf] := ⟨rfl, rfl, rfl, rfl, rfl, rfl⟩

theorem witness_SentCodeIsOneTransfer :
    (inSession 0 []).bus.op = none ∧ (inSession 0 []).bus.session.isSome = true ∧ base.bus.op = none ∧
      base.bus.session = none := by decide

/-- A code that is not sent next; each position, its first and its last; and responses that let the operation go on and
that end it. -/
theorem witness_SentCodeAtItsPosition :
    (underway .padPoll 1 0 0 0 []).bus.op = some ⟨.padPoll, 5, 1, 0, 0, 0⟩ ∧
      (underway .padPoll 1 0 0 0 []).bus.session = some 0 ∧
      OpRun.sends ⟨.padPoll, 5, 1, 0, 0, 0⟩ base.bufs.inBuf = 0x01 ∧
      OpRun.sends ⟨.padPoll, 5, 1, 0, 0, 0⟩ base.bufs.inBuf ≠ 0x81 ∧
      OpRun.dueCode ⟨.padPoll, 5, 1, 0, 0, 0⟩ .selPad ∧ OpRun.dueCode ⟨.mcRead, 5, 2, 0, 0, 0⟩ .cmdReadR ∧
      OpRun.dueCode ⟨.mcRead, 5, 140, 0, 0, 0⟩ .filler ∧ OpRun.dueCode ⟨.mcWrite, 5, 138, 0, 0, 0⟩ .filler ∧
      (1 : Nat) ≤ 1 ∧ 1 ≤ OpKind.padPoll.transfers ∧ 140 ≤ OpKind.mcRead.transfers ∧
      OpRun.resultOn ⟨.mcRead, 5, 2, 0, 0, 0⟩ 0x08 = none ∧ OpRun.resultOn ⟨.mcRead, 5, 2, 0, 0, 0⟩ 0xFF = some false ∧
      OpRun.resultOn ⟨.mcRead, 5, 140, 0, 5, 5⟩ 0x47 = some true ∧
      OpRun.resultOn ⟨.padPoll, 5, 4, 0x5A, 0, 0⟩ 0x41 = some false := by
  refine ⟨rfl, rfl, rfl, by decide, .inl ⟨rfl, rfl, rfl⟩, .inr (.inr (.inl ⟨rfl, .inl rfl, rfl⟩)),
    .inr (.inr (.inr (.inr (.inr ⟨rfl, by decide, .inr (.inr (.inl ⟨rfl, by decide, by decide⟩))⟩)))),
    .inr (.inr (.inr (.inr (.inr ⟨rfl, by decide, .inr (.inr (.inr ⟨rfl, .inr (by decide)⟩))⟩)))), ?_⟩
  decide

theorem witness_ReceivedCodeIsListed : base.bus.op = none := by decide

theorem witness_ReceivedCodeEndsOperation :
    (underway .mcProbe 2 0 0 0 []).bus.op = some ⟨.mcProbe, 5, 2, 0, 0, 0⟩ ∧
      (underway .mcProbe 2 0 0 0 []).bus.session = some 0 ∧
      (underway .mcRead 7 0 0 0 []).bus.op = some ⟨.mcRead, 5, 7, 0, 0, 0⟩ ∧
      (underway .mcRead 140 0 5 5 []).bus.op = some ⟨.mcRead, 5, 140, 0, 5, 5⟩ ∧
      (underway .mcRead 140 0 5 6 []).bus.op = some ⟨.mcRead, 5, 140, 0, 5, 6⟩ ∧ (5 : Byte) ≠ 6 ∧
      (underway .mcWrite 138 0 0 0 []).bus.op = some ⟨.mcWrite, 5, 138, 0, 0, 0⟩ := by decide

theorem witness_ReceivedCodeGoesOn :
    (underway .mcRead 7 0 0 0 []).bus.op = some ⟨.mcRead, 5, 7, 0, 0, 0⟩ ∧
      (underway .mcProbe 3 0 0 0 []).bus.op = some ⟨.mcProbe, 5, 3, 0, 0, 0⟩ ∧
      (underway .padPoll 3 0 0 0 []).bus.op = some ⟨.padPoll, 5, 3, 0, 0, 0⟩ ∧
      (underway .padPoll 4 0x41 0 0 []).bus.op = some ⟨.padPoll, 5, 4, 0x41, 0, 0⟩ := by decide

theorem witness_PowerCycleResets : (given [.powerCycle]).inputs = [.powerCycle] := rfl

theorem witness_IdleMachineWaits :
    base.inputs = [] ∧ base.bus.op = none ∧ (underway .padPoll 3 0 0 0 []).inputs = [] ∧
      (underway .padPoll 3 0 0 0 []).bus.op = some ⟨.padPoll, 5, 3, 0, 0, 0⟩ := by decide

/-- A consistent state with an operation in progress, and its next step. -/
theorem witness_StepKeepsConsistency :
    ((underway .padPoll 3 0 0 0 []).withInputs [.busTurn]).Inv ∧
      ∃ t, step ((underway .padPoll 3 0 0 0 []).withInputs [.busTurn]) = .next t := by
  refine ⟨⟨⟨by decide, rfl, rfl⟩, by decide, ?_⟩, _, rfl⟩
  intro r hr
  cases hr
  decide

end Sys2Proof.Tests
end

/-! PROOFS. The decoder's record: what every byte keeps of it, and what an emitted packet is (10_state.md R23, R25 to
R31, 41_packet_decoder.md R120 to R133). -/

namespace Sys2Proof.Machine

theorem packetNodeOk_iff {n : Byte} : packetNodeOk n = true ↔ n ≤ 31 ∨ n = 0xFF := by
  simp [packetNodeOk]

/-- A local node number is a node number a packet may carry (R31, R104). -/
theorem packetNodeOk_of_localNodeOk {n : Byte} (h : localNodeOk n = true) : packetNodeOk n = true := by
  rw [packetNodeOk, Bool.or_eq_true]
  exact .inl h

/-- LOCAL_NODE is legal whatever its value is (R7). -/
theorem localNodeOk_config : localNodeOk Config.localNode = true := by
  have h := Config.localNodeNumber.isLt
  have h31 : Config.nodeMax.toNat = 31 := rfl
  rw [localNodeOk, Config.localNode, decide_eq_true_eq, BitVec.le_def, BitVec.toNat_ofNat, h31]
  omega

/-! ## The record stays consistent -/

section
variable {d : Dec}

theorem Dec.Inv.fresh (h : d.Inv) : d.fresh.Inv := ⟨h.1, rfl, rfl⟩

theorem Dec.Inv.drop (h : d.Inv) : d.drop.Inv := ⟨h.1, rfl, rfl⟩

theorem Dec.Inv.addrArm (h : d.Inv) (hp : d.phase = .waitSync) (v : Byte) : (d.addrArm v).dec.Inv := by
  obtain ⟨hlocal, hlength, hphase⟩ := h
  rw [hp] at hphase
  unfold Dec.addrArm
  split
  · next hv =>
    refine ⟨hlocal, hlength, hphase, ?_⟩
    rcases hv with rfl | rfl
    · exact packetNodeOk_of_localNodeOk hlocal
    · rfl
  · exact Dec.Inv.drop ⟨hlocal, hlength, by rwa [hp]⟩

theorem Dec.Inv.lenArm (h : d.Inv) (hp : d.phase = .gotAddress) (v : Byte) : (d.lenArm v).dec.Inv := by
  have hnode : packetNodeOk d.node = true := by
    obtain ⟨-, -, hphase⟩ := h
    rw [hp] at hphase
    exact hphase.2
  unfold Dec.lenArm
  split
  · exact h.drop
  · next hv =>
    have hle : v ≤ 254 := by bv_omega
    refine ⟨h.1, rfl, ?_⟩
    by_cases h0 : v = 0
    · simp only [if_pos h0]
      exact ⟨h0.symm, hle, hnode⟩
    · simp only [if_neg h0]
      exact ⟨by bv_omega, hle, hnode⟩

theorem Dec.Inv.dataArm (h : d.Inv) (hp : d.phase = .receivingData) (v : Byte) : (d.dataArm v).dec.Inv := by
  obtain ⟨hlocal, hlength, hphase⟩ := h
  rw [hp] at hphase
  obtain ⟨hlt, hle, hnode⟩ := hphase
  have hcount : (d.count + 1).toNat = d.count.toNat + 1 := by bv_omega
  have hlength' : (d.payload ++ [v]).length = (d.count + 1).toNat := by
    rw [hcount, List.length_append, hlength, List.length_singleton]
  refine ⟨hlocal, hlength', ?_⟩
  by_cases hlast : d.count + 1 = d.len
  · simp only [Dec.dataArm, if_pos hlast]
    exact ⟨hlast, hle, hnode⟩
  · simp only [Dec.dataArm, if_neg hlast, hp]
    exact ⟨by bv_omega, hle, hnode⟩

theorem Dec.Inv.chkArm (h : d.Inv) (v : Byte) : (d.chkArm v).dec.Inv := by
  unfold Dec.chkArm
  split <;> exact h.drop

theorem Dec.Inv.phaseArm (h : d.Inv) (v : Byte) : (d.phaseArm v).dec.Inv := by
  unfold Dec.phaseArm
  split
  · next hp => exact h.addrArm hp v
  · next hp => exact h.lenArm hp v
  · next hp => exact h.dataArm hp v
  · exact h.chkArm v

/-- One byte keeps the record consistent: the markers change flags the invariant does not speak of, and a SYNC or a value
does what its arm does (R120). -/
theorem Dec.Inv.decStep (h : d.Inv) (mode : HuntMode) (r : Byte) : (decStep mode d r).dec.Inv := by
  rcases decStep_cases mode d r with ⟨-, e⟩ | ⟨-, -, e⟩ | ⟨-, -, -, e⟩ | ⟨-, -, -, e⟩ <;> rw [e]
  · exact h.fresh
  · exact h
  · exact h
  · exact Dec.Inv.phaseArm (d := d.clearEscape) h _

theorem Dec.Inv.drain (h : d.Inv) (mode : HuntMode) (l : List Byte) : (drain mode d l).dec.Inv := by
  induction l generalizing d with
  | nil => exact h
  | cons r rs ih =>
    rw [Machine.drain]
    split
    · exact h.decStep mode r
    · exact ih (h.decStep mode r)

end

theorem Dec.reset_inv : Dec.reset.Inv := ⟨localNodeOk_config, rfl, rfl⟩

/-! ## What is emitted -/

/-- Only the checksum arm emits, and only on a match (R128). -/
theorem Dec.phaseArm_out {d : Dec} {v : Byte} {p : Packet} (h : (d.phaseArm v).out = some p) :
    d.phase = .receivedAll ∧ v = checksum d.node d.payload ∧ p = ⟨d.node, d.payload, v⟩ := by
  unfold Dec.phaseArm at h
  cases hp : d.phase <;> simp only [hp] at h
  case waitSync => unfold Dec.addrArm at h; split at h <;> cases h
  case gotAddress => unfold Dec.lenArm at h; split at h <;> cases h
  case receivingData => cases h
  case receivedAll =>
    unfold Dec.chkArm at h
    split at h
    · next hv => cases h; exact ⟨rfl, hv, rfl⟩
    · cases h

/-- A packet comes out of dec_step only behind the whole frame, from a checksum byte that matches. -/
theorem decStep_out {mode : HuntMode} {d : Dec} {r : Byte} {p : Packet} (h : (decStep mode d r).out = some p) :
    d.phase = .receivedAll ∧ unescapeValue d.esc r = checksum d.node d.payload ∧
      p = ⟨d.node, d.payload, unescapeValue d.esc r⟩ := by
  rcases decStep_cases mode d r with ⟨-, e⟩ | ⟨-, -, e⟩ | ⟨-, -, -, e⟩ | ⟨-, -, -, e⟩ <;> rw [e] at h
  · cases h
  · cases h
  · cases h
  · exact Dec.phaseArm_out (d := d.clearEscape) h

/-- Settles O19: the emitted packet is the received one, and the invariant of the phase ReceivedAll gives its length and
its node number. -/
theorem emittedPacketsAreValid : Obligations.EmittedPacketsAreValid := by
  intro mode d r p hd hout
  obtain ⟨hp, hv, rfl⟩ := decStep_out hout
  obtain ⟨-, hlength, hphase⟩ := hd
  rw [hp] at hphase
  obtain ⟨hcount, -, hnode⟩ := hphase
  exact ⟨hv, rfl, rfl, by rw [hlength, hcount], rfl, packetNodeOk_iff.mp hnode⟩

end Sys2Proof.Machine

/-! PROOFS. The bus controller's record and the whole state: what every instruction, every way to present one and every step
keeps of it (10_state.md R37, R39, R41, R43). -/

namespace Sys2Proof.Machine

/-! ## Select lines and session (R37) -/

/-- A session opens on a slot while every line is high: that slot's line alone is low. -/
theorem sel_low_iff_of_begin {sel : Vector Bool 2} (h : ∀ slot : Fin 2, sel[slot] = false ↔ none = some slot)
    (n slot : Fin 2) : (sel.set n false)[slot] = false ↔ some n = some slot := by
  have hhigh : sel[slot.val] ≠ false := fun hlow => nomatch (h slot).mp hlow
  simp [Vector.getElem_set, hhigh, Fin.ext_iff]

/-- The session closes and its slot's line rises: no line is low. -/
theorem sel_low_iff_of_end {sel : Vector Bool 2} {n : Fin 2} (h : ∀ slot : Fin 2, sel[slot] = false ↔ some n = some slot)
    (slot : Fin 2) : (sel.set n true)[slot] = false ↔ none = some slot := by
  have hother : n ≠ slot → sel[slot.val] ≠ false := fun hne hlow => hne (Option.some.inj ((h slot).mp hlow))
  simpa [Vector.getElem_set, Fin.ext_iff] using hother

/-! ## The bus controller's operations -/

section
variable {s : State}

theorem State.Inv.beginSession (h : s.Inv) (ho : s.bus.op = none) (hs : s.bus.session = none) (n : Fin 2) :
    (s.beginSession n).Inv := by
  obtain ⟨hdec, hsel, -⟩ := h
  rw [hs] at hsel
  rw [State.beginSession_eq]
  exact ⟨hdec, sel_low_iff_of_begin hsel n, fun r hr => nomatch ho.symm.trans hr⟩

theorem State.Inv.endSession (h : s.Inv) (ho : s.bus.op = none) {n : Fin 2} (hs : s.bus.session = some n) :
    s.endSession.Inv := by
  obtain ⟨hdec, hsel, -⟩ := h
  rw [hs] at hsel
  rw [State.endSession_eq s hs]
  exact ⟨hdec, sel_low_iff_of_end hsel, fun r hr => nomatch ho.symm.trans hr⟩

theorem State.Inv.transfer (h : s.Inv) (tXchg : Nat) (c : Byte) (tm : Timing) : (s.transfer tXchg c tm).2.Inv := by
  rw [State.transfer_eq]
  exact h

theorem OpKind.one_le_transfers (kind : OpKind) : 1 ≤ kind.transfers := by
  cases kind <;> decide

/-- An operation that has just started is at its first transfer, in the session it has opened. -/
theorem State.Inv.openOp (h : s.Inv) (ho : s.bus.op = none) (hs : s.bus.session = none) (kind : OpKind) (slot : Byte)
    (sector : U16) : (s.openOp kind slot sector).Inv := by
  obtain ⟨hdec, hsel, -⟩ := h.beginSession ho hs (slotIndex slot)
  refine ⟨hdec, hsel, fun r hr => ?_⟩
  cases hr
  exact ⟨rfl, Nat.le_refl 1, kind.one_le_transfers⟩

/-- The last transfer of an operation ends it, whatever the response (R208). -/
theorem OpRun.resultOn_last {r : OpRun} (h : r.k = r.kind.transfers) (b : Byte) : r.resultOn b ≠ none := by
  obtain ⟨kind, sector, k, id0, chk, rx⟩ := r
  cases kind <;> cases h <;> simp [OpRun.resultOn]

/-- An operation that goes on is not behind its last transfer. -/
theorem OpRun.goOn_in_range {r r' : OpRun} {c b : Byte} (h1 : 1 ≤ r.k) (h2 : r.k ≤ r.kind.transfers)
    (hv : r.judges c b = .goOn r') : r'.k ≤ r'.kind.transfers := by
  obtain ⟨hkind, -, hk⟩ := OpRun.judges_goOn hv
  have hlast : r.k ≠ r.kind.transfers := by
    intro hlast
    obtain ⟨ok, hok⟩ := Option.ne_none_iff_exists'.mp (OpRun.resultOn_last hlast b)
    rw [OpRun.judges_eq r c b h1 h2, hok] at hv
    cases hv
  rw [hkind, hk]
  omega

theorem State.Inv.moved (h : s.Inv) (p : BusParams) (r : OpRun) : (s.moved p r).Inv :=
  h.transfer ..

/-- A turn keeps the state consistent: the operation is at its next transfer, or it has closed its session. -/
theorem State.Inv.turnOf (h : s.Inv) {r : OpRun} (hr : s.bus.op = some r) (p : BusParams) : (s.turnOf p r).Inv := by
  obtain ⟨hdec, hsel, hop⟩ := h.moved p r
  obtain ⟨hsession, h1, h2⟩ := hop r (by rw [State.moved_op, hr])
  rw [State.turnOf_eq]
  cases hv : r.judges (r.sends s.bufs.inBuf) (s.dev.answerAt 0) with
  | goOn r' =>
    refine ⟨hdec, hsel, fun x hx => ?_⟩
    cases hx
    have hk := (OpRun.judges_goOn hv).2.2
    exact ⟨hsession, by omega, OpRun.goOn_in_range h1 h2 hv⟩
  | done ok e =>
    obtain ⟨n, hn⟩ := Option.isSome_iff_exists.mp hsession
    rw [hn] at hsel
    rw [State.settle_done _ hn]
    exact ⟨hdec, sel_low_iff_of_end hsel, fun x hx => nomatch hx⟩

theorem State.Inv.turn (h : s.Inv) (p : BusParams) : (s.turn p).Inv := by
  cases ho : s.bus.op with
  | none => rwa [State.turn_of_none ho]
  | some r => rw [State.turn_of_some ho]; exact h.turnOf ho p

theorem State.Inv.withDev (h : s.Inv) (d : Device) : (s.withDev d).Inv := h

theorem State.Inv.answered (h : s.Inv) (p : BusParams) (b : Byte) : (s.answered p b).Inv := by
  cases ho : s.bus.op with
  | none => rw [State.answered_of_none p b s ho]; exact h
  | some r =>
    rw [State.answered_of_some p b s ho]
    have ho' : (s.withDev { s.dev with answers := b :: s.dev.answers }).bus.op = some r := ho
    exact (h.withDev _).turnOf ho' p

end

theorem Bus.reset_inv : Bus.reset.Inv :=
  ⟨by decide, fun _ hr => nomatch hr⟩

/-- Settles O60. -/
theorem resetIsConsistent : Obligations.ResetIsConsistent := ⟨Dec.reset_inv, Bus.reset_inv⟩

/-! ## Instructions and the moves of the agents -/

section
variable {s t : State}

theorem State.Inv.executed (h : s.Inv) {i : Instr} (he : Executed i s t) : t.Inv := by
  obtain ⟨hdec, hbus⟩ := h
  cases he with
  | send => exact ⟨hdec, hbus⟩
  | feed b => exact ⟨hdec.decStep _ b, hbus⟩
  | poll => exact ⟨hdec.drain _ _, hbus⟩
  | setNode node _ hn => exact ⟨⟨hn, hdec.2⟩, hbus⟩
  | begin slot _ ho hs => exact State.Inv.beginSession ⟨hdec, hbus⟩ ho hs _
  | finish slot _ ho hs => exact State.Inv.endSession ⟨hdec, hbus⟩ ho hs
  | transfer c tm => exact State.Inv.transfer ⟨hdec, hbus⟩ _ c tm
  | operation kind slot sector _ ho hs =>
    have hstart := State.Inv.openOp ⟨hdec, hbus⟩ ho hs kind slot sector
    exact State.turns_keep _ (fun _ _ hr hx => hx.turnOf hr _) _ _ hstart
  | turn r _ ho => exact State.Inv.turnOf ⟨hdec, hbus⟩ ho _
  | answered b => exact State.Inv.answered ⟨hdec, hbus⟩ _ b

/-- An operation starts only on an idle bus with no session open (R192). -/
theorem startOp_next {kind : OpKind} {slot : Byte} {sector : U16} (h : startOp kind slot sector s = .next t) :
    t = s.openOp kind slot sector ∧ s.bus.op = none ∧ s.bus.session = none := by
  obtain ⟨rfl, hc⟩ := checked_next h
  have ho := hc (s.bus.op.isSome, .busy) (by simp [opChecks])
  have hs := hc (s.bus.session.isSome, .sessionOpen) (by simp [opChecks])
  exact ⟨rfl, by simpa using ho, by simpa using hs⟩

theorem State.Inv.startOp (h : s.Inv) {kind : OpKind} {slot : Byte} {sector : U16}
    (hn : startOp kind slot sector s = .next t) : t.Inv := by
  obtain ⟨rfl, ho, hs⟩ := startOp_next hn
  exact h.openOp ho hs kind slot sector

/-- Presented turn by turn, an instruction starts an operation or is executed whole. -/
theorem startOnly_cases (i : Instr) (s : State) :
    (∃ kind slot sector, startOnly i s = Machine.startOp kind slot sector s) ∨ startOnly i s = exec i s := by
  cases i
  case mcRead slot sector => exact .inl ⟨_, _, _, rfl⟩
  case mcProbe slot sector => exact .inl ⟨_, _, _, rfl⟩
  case mcWrite slot sector => exact .inl ⟨_, _, _, rfl⟩
  case padPoll slot => exact .inl ⟨_, _, _, rfl⟩
  all_goals exact .inr rfl

theorem State.Inv.present (h : s.Inv) {mode : Mode} {i : Instr} (hn : present mode i s = .next t) : t.Inv := by
  cases mode with
  | whole => exact h.executed (executed_of_exec hn)
  | overlapping => cases hn
  | turnwise =>
    rcases startOnly_cases i s with ⟨kind, slot, sector, e⟩ | e <;> rw [Machine.present, e] at hn
    · exact h.startOp hn
    · exact h.executed (executed_of_exec hn)

theorem State.Inv.changeBuffers (h : s.Inv) {b : Buffers} (hn : changeBuffers b s = .next t) : t.Inv := by
  obtain ⟨rfl, -⟩ := checked_next hn
  exact h

theorem State.Inv.request (h : s.Inv) {mode : Mode} {port : Port} {bytes : List Byte} {q : List Input}
    (hn : request mode port bytes q s = .next t) : t.Inv := by
  unfold Machine.request at hn
  split at hn
  · next rest _ => exact State.Inv.present (s := s.withInputs (leftover mode port rest q)) h hn
  · cases hn

theorem State.Inv.accept (h : s.Inv) {input : Input} {q : List Input} (hn : accept input q s = .next t) : t.Inv := by
  have hq : (s.withInputs q).Inv := h
  cases input with
  | request mode port bytes => exact h.request hn
  | busTurn => cases hn; exact hq.turn _
  | answer b => cases hn; exact hq.answered _ b
  | ackEdge e => cases hn; exact hq
  | receive b => cases hn; exact hq
  | drain n => cases hn; exact hq
  | setOut v => exact hq.changeBuffers hn
  | setIn v => exact hq.changeBuffers hn
  | setPad v => exact hq.changeBuffers hn
  | powerCycle => cases hn; exact resetIsConsistent

theorem State.Inv.step (h : s.Inv) (hn : step s = .next t) : t.Inv := by
  unfold Machine.step advance at hn
  split at hn
  · cases hn; exact h.turn _
  · exact h.accept hn

end

/-- Settles O59: each input of the agents keeps the decoder's record and the bus controller's record consistent. -/
theorem stepKeepsConsistency : Obligations.StepKeepsConsistency := fun _ _ h hn => h.step hn

end Sys2Proof.Machine

/-! PROOFS. What each block leaves alone, over every instruction: the state of the other blocks, the inputs, the results
returned before, the buffers and the clock (10_state.md R21, R24, R31, R38, R42). -/

namespace Sys2Proof.Machine

/-! ## The frame of each block -/

/-- The inputs are untouched, no result is taken back, and the clock does not run back. -/
structure Continues (s t : State) : Prop where
  inputs : t.inputs = s.inputs
  results : ∃ more, t.results = s.results ++ more
  now : s.bus.now ≤ t.bus.now

/-- What both ends of the packet link leave alone: the bus controller, the peripherals and the buffers. -/
structure LinkMove (s t : State) : Prop extends Continues s t where
  bus : t.bus = s.bus
  dev : t.dev = s.dev
  bufs : t.bufs = s.bufs

/-- What the encoder may do: it writes to its channel. -/
structure EncMove (s t : State) : Prop extends LinkMove s t where
  dec : t.dec = s.dec
  rx : t.chan.rx = s.chan.rx

/-- What an instruction of the decoder may do: it reads from its channel, and the local node number changes in DEC_SET_NODE
only. -/
structure DecMove (i : Instr) (s t : State) : Prop extends LinkMove s t where
  tx : t.chan.tx = s.chan.tx
  localNode : (∀ node, i ≠ .decSetNode node) → t.dec.localNode = s.dec.localNode

/-- What the bus controller may do: the decoder and the channel are untouched. -/
structure BusMove (s t : State) : Prop extends Continues s t where
  dec : t.dec = s.dec
  chan : t.chan = s.chan

/-- A command of the packet link that returns one result. -/
theorem LinkMove.of_eq {s t : State} {r : Result} (hbus : t.bus = s.bus) (hdev : t.dev = s.dev) (hbufs : t.bufs = s.bufs)
    (hinputs : t.inputs = s.inputs) (hresults : t.results = s.results ++ [r]) : LinkMove s t :=
  ⟨⟨hinputs, ⟨[r], hresults⟩, by rw [hbus]⟩, hbus, hdev, hbufs⟩

/-- A move of the bus controller that returns nothing and takes no time. -/
theorem BusMove.of_eq {s t : State} (hdec : t.dec = s.dec) (hchan : t.chan = s.chan) (hinputs : t.inputs = s.inputs)
    (hresults : t.results = s.results) (hnow : t.bus.now = s.bus.now) : BusMove s t :=
  ⟨⟨hinputs, ⟨[], by rw [hresults, List.append_nil]⟩, by rw [hnow]⟩, hdec, hchan⟩

theorem BusMove.refl (s : State) : BusMove s s := .of_eq rfl rfl rfl rfl rfl

theorem BusMove.trans {s t u : State} (h : BusMove s t) (h' : BusMove t u) : BusMove s u := by
  obtain ⟨more, hm⟩ := h.results
  obtain ⟨more', hm'⟩ := h'.results
  have hresults : u.results = s.results ++ (more ++ more') := by rw [hm', hm, List.append_assoc]
  exact ⟨⟨h'.inputs.trans h.inputs, ⟨_, hresults⟩, Nat.le_trans h.now h'.now⟩,
    h'.dec.trans h.dec, h'.chan.trans h.chan⟩

theorem BusMove.returns {s t : State} (h : BusMove s t) (r : Result) : BusMove s (t.returns r) :=
  h.trans ⟨⟨rfl, ⟨[r], rfl⟩, Nat.le_refl _⟩, rfl, rfl⟩

theorem State.beginSession_move (s : State) (n : Fin 2) : BusMove s (s.beginSession n) :=
  .of_eq rfl rfl rfl rfl rfl

theorem State.endSession_move (s : State) {n : Fin 2} (h : s.bus.session = some n) : BusMove s s.endSession := by
  rw [State.endSession_eq s h]
  exact .of_eq rfl rfl rfl rfl rfl

theorem State.openOp_move (s : State) (kind : OpKind) (slot : Byte) (sector : U16) :
    BusMove s (s.openOp kind slot sector) :=
  (s.beginSession_move (slotIndex slot)).trans (.of_eq rfl rfl rfl rfl rfl)

theorem State.transfer_move (s : State) (tXchg : Nat) (c : Byte) (tm : Timing) :
    BusMove s (s.transfer tXchg c tm).2 := by
  have hnow := s.transfer_now tXchg c tm
  rw [State.transfer_eq] at hnow ⊢
  exact ⟨⟨rfl, ⟨[], by simp⟩, hnow⟩, rfl, rfl⟩

theorem State.turnOf_move (p : BusParams) (s : State) (r : OpRun) : BusMove s (s.turnOf p r) :=
  ⟨⟨State.turnOf_inputs p s r, State.turnOf_results p s r, State.turnOf_now p s r⟩, State.turnOf_dec p s r,
    State.turnOf_chan p s r⟩

theorem State.turns_move (p : BusParams) (n : Nat) (s : State) : BusMove s (s.turns p n) :=
  State.turns_keep p (fun t r _ h => h.trans (t.turnOf_move p r)) n s (.refl s)

theorem State.withDev_move (s : State) (d : Device) : BusMove s (s.withDev d) :=
  .of_eq rfl rfl rfl rfl rfl

theorem State.answered_move (p : BusParams) (b : Byte) (s : State) : BusMove s (s.answered p b) := by
  cases ho : s.bus.op with
  | none => rw [State.answered_of_none p b s ho]; exact s.withDev_move _
  | some r => rw [State.answered_of_some p b s ho]; exact (s.withDev_move _).trans (State.turnOf_move p _ r)

/-- The operations are commands of the bus controller. -/
theorem port_of_operationOf {i : Instr} {x : OpKind × Byte × U16} (h : operationOf i = some x) : i.port = .bus := by
  cases i <;> cases h <;> rfl

/-- Every instruction moves its own block only. -/
theorem Executed.moves {i : Instr} {s t : State} (h : Executed i s t) :
    i.port = .enc ∧ EncMove s t ∨ (i.port = .dec ∨ i.port = .wire) ∧ DecMove i s t ∨
      (i.port = .bus ∨ i.port = .lineOut ∨ i.port = .mcIn ∨ i.port = .padIn) ∧ BusMove s t := by
  cases h with
  | send n payload hi =>
    subst hi
    exact .inl ⟨rfl, ⟨.of_eq rfl rfl rfl rfl rfl, rfl, rfl⟩⟩
  | feed b hi =>
    refine .inr (.inl ⟨?_, ⟨.of_eq rfl rfl rfl rfl rfl, rfl, fun _ => decStep_localNode ..⟩⟩)
    rcases hi with rfl | hi
    · exact .inl rfl
    · exact .inr hi
  | poll hi =>
    subst hi
    exact .inr (.inl ⟨.inl rfl, ⟨.of_eq rfl rfl rfl rfl rfl, rfl, fun _ => drain_localNode ..⟩⟩)
  | setNode node hi =>
    subst hi
    exact .inr (.inl ⟨.inl rfl, ⟨.of_eq rfl rfl rfl rfl rfl, rfl, fun hne => absurd rfl (hne node)⟩⟩)
  | begin slot hi =>
    subst hi
    exact .inr (.inr ⟨.inl rfl, (s.beginSession_move _).returns _⟩)
  | finish slot hi _ hs =>
    subst hi
    exact .inr (.inr ⟨.inl rfl, (s.endSession_move hs).returns _⟩)
  | transfer c tm slot hi =>
    refine .inr (.inr ⟨?_, (s.transfer_move _ c tm).returns _⟩)
    rcases hi with rfl | hi
    · exact .inl rfl
    · exact .inr (.inl hi)
  | operation kind slot sector hi =>
    exact .inr (.inr ⟨.inl (port_of_operationOf hi), (s.openOp_move kind slot sector).trans (State.turns_move ..)⟩)
  | turn r hi => exact .inr (.inr ⟨.inr (.inl hi), State.turnOf_move _ s r⟩)
  | answered b hi => exact .inr (.inr ⟨.inr (.inr hi), State.answered_move _ b s⟩)

theorem Executed.continues {i : Instr} {s t : State} (h : Executed i s t) : Continues s t := by
  rcases h.moves with ⟨-, hm⟩ | ⟨-, hm⟩ | ⟨-, hm⟩ <;> exact hm.toContinues

/-- Settles O55: the clock stands still outside the bus controller, and a transfer only adds to it. -/
theorem clockNeverRunsBack : Obligations.ClockNeverRunsBack :=
  fun _ _ _ h => (executed_of_exec h).continues.now

/-- Settles O53: each instruction's port says which block it moves. -/
theorem blocksDoNotInterfere : Obligations.BlocksDoNotInterfere := by
  intro i s t h
  rcases (executed_of_exec h).moves with ⟨hp, hm⟩ | ⟨hp, hm⟩ | ⟨hp, hm⟩
  · simp [hp, hm.dec, hm.rx, hm.bus, hm.dev, hm.bufs, hm.inputs, hm.results]
  · rcases hp with hp | hp <;> simp [hp, hm.tx, hm.bus, hm.dev, hm.bufs, hm.inputs, hm.results]
  · rcases hp with hp | hp | hp | hp <;> simp [hp, hm.dec, hm.chan, hm.inputs, hm.results]

/-- Settles O29: the encoder and the bus controller leave the decoder alone, and dec_step never writes the local node
number. -/
theorem onlySetNodeChangesLocalNode : Obligations.OnlySetNodeChangesLocalNode := by
  intro i s t h hne
  rcases (executed_of_exec h).moves with ⟨-, hm⟩ | ⟨-, hm⟩ | ⟨-, hm⟩
  · rw [hm.dec]
  · exact hm.localNode hne
  · rw [hm.dec]

/-! ## The caller's buffers (R42) -/

section
variable {α : Type} {view : Buffers → α} {writes : OpKind → Prop} {s t : State}

/-- What is seen of the buffers is what it was in s, and no operation that writes there is in progress. -/
def Spared (view : Buffers → α) (writes : OpKind → Prop) (s t : State) : Prop :=
  view t.bufs = view s.bufs ∧ ∀ r, t.bus.op = some r → ¬writes r.kind

/-- A turn of an operation that does not write there. -/
theorem Spared.turnOf (hstores : ∀ (r : OpRun) (b : Byte) (x : Buffers), ¬writes r.kind → view (r.stores b x) = view x)
    (h : Spared view writes s t) {r : OpRun} (hr : t.bus.op = some r) (p : BusParams) :
    Spared view writes s (t.turnOf p r) := by
  obtain ⟨hview, hop⟩ := h
  refine ⟨by rw [State.turnOf_bufs, hstores r _ _ (hop r hr), hview], fun x hx => ?_⟩
  rcases State.turnOf_op p t r with hnone | ⟨r', hr', hkind, -⟩
  · cases hnone.symm.trans hx
  · cases hr'.symm.trans hx
    rw [hkind]
    exact hop r hr

/-- An instruction leaves what is seen of the buffers alone, unless it starts an operation that writes there, or one is in
progress. -/
theorem Executed.spares (hstores : ∀ (r : OpRun) (b : Byte) (x : Buffers), ¬writes r.kind → view (r.stores b x) = view x)
    {i : Instr} (h : Executed i s t) (hi : ∀ kind slot sector, operationOf i = some (kind, slot, sector) → ¬writes kind)
    (hop : ∀ r, s.bus.op = some r → ¬writes r.kind) : view t.bufs = view s.bufs := by
  cases h with
  | send => rfl
  | feed => rfl
  | poll => rfl
  | setNode => rfl
  | begin => rfl
  | finish slot _ _ hs => rw [State.endSession_eq s hs]; rfl
  | transfer c tm => rw [State.transfer_eq]; rfl
  | operation kind slot sector hk =>
    have hstart : Spared view writes s (s.openOp kind slot sector) :=
      ⟨rfl, fun r hr => by cases hr; exact hi kind slot sector hk⟩
    exact (State.turns_keep _ (fun t r hr ht => Spared.turnOf hstores ht hr _) _ _ hstart).1
  | turn r _ ho => rw [State.turnOf_bufs, hstores r _ _ (hop r ho)]
  | answered b =>
    cases ho : s.bus.op with
    | none => rw [State.answered_of_none _ b s ho]; rfl
    | some r => rw [State.answered_of_some _ b s ho, State.turnOf_bufs, hstores r _ _ (hop r ho)]; rfl

end

theorem operationOf_eq_mcRead {i : Instr} {slot : Byte} {sector : U16} (h : operationOf i = some (.mcRead, slot, sector)) :
    i = .mcRead slot sector := by
  cases i <;> cases h
  rfl

theorem operationOf_eq_padPoll {i : Instr} {slot : Byte} {sector : U16}
    (h : operationOf i = some (.padPoll, slot, sector)) : i = .padPoll slot := by
  cases i <;> cases h
  rfl

/-- Settles O54: no operation writes In, only a read writes Out, and only a poll writes Pad. -/
theorem buffersWrittenOnlyByTheirOperation : Obligations.BuffersWrittenOnlyByTheirOperation := by
  intro i s t h
  have he := executed_of_exec h
  refine ⟨?_, fun hi hop => ?_, fun hi hop => ?_⟩
  · exact he.spares (view := Buffers.inBuf) (writes := fun _ => False) (fun r b x _ => r.stores_inBuf b x)
      (fun _ _ _ _ => id) (fun _ _ => id)
  · refine he.spares (view := Buffers.outBuf) (writes := (· = .mcRead)) OpRun.stores_outBuf ?_ hop
    rintro _ slot sector hk rfl
    exact hi slot sector (operationOf_eq_mcRead hk)
  · refine he.spares (view := Buffers.padBuf) (writes := (· = .padPoll)) OpRun.stores_padBuf ?_ hop
    rintro _ slot sector hk rfl
    exact hi slot (operationOf_eq_padPoll hk)

end Sys2Proof.Machine

/-! PROOFS. How a command of the bus controller is presented and run: whole, transfer by transfer, or while its block is
busy; and what the machine does with nothing presented (20_memory.md R58, R62, 60_exceptions.md R234, R249, R265). -/

namespace Sys2Proof.Machine

/-! ## What a step does -/

section
variable {s t : State}

/-- A step on presented bytes presents the instruction they begin with, and what is behind it is presented next. -/
theorem step_request {mode : Mode} {port : Port} {bytes rest : List Byte} {q : List Input} {i : Instr}
    (hs : s.inputs = .request mode port bytes :: q) (hd : decode port s.dec.esc bytes = .ok i rest) :
    step s = present mode i (s.withInputs (leftover mode port rest q)) := by
  simp only [step, advance, hs, accept, request, State.fetch, hd]

theorem step_busTurn {q : List Input} (hs : s.inputs = .busTurn :: q) :
    step s = .next ((s.withInputs q).turn Config.busParams) := by
  simp only [step, advance, hs, accept]

theorem step_idle (hs : s.inputs = []) : step s = .next (s.turn Config.busParams) := by
  simp only [step, advance, hs]

theorem State.withInputs_self {q : List Input} (h : s.inputs = q) : s.withInputs q = s := by
  subst h
  rfl

/-- A run goes on from the state its first step leads to. -/
theorem core_run_succ (h : step s = .next t) (n : Nat) : core.run (n + 1) s = core.run n t := by
  have hstep : core.step s = .next t := h
  simp only [Host.Core.run, hstep]

end

/-- Settles O58: without a command and without an operation the turn changes nothing; with one, the turn that goes on by
itself is the turn that is presented. -/
theorem idleMachineWaits : Obligations.IdleMachineWaits := by
  refine ⟨fun s hs ho => ?_, fun s r hs _ => ?_⟩
  · rw [step_idle hs, State.turn_of_none ho]
  · have hself : ({ s with inputs := [.busTurn] } : State).withInputs [] = s := State.withInputs_self hs
    rw [step_idle hs, step_busTurn (s := { s with inputs := [.busTurn] }) rfl, hself]

/-! ## REF_BUSY -/

/-- REF_BUSY is the first check of every command of the bus controller (R236). -/
theorem checked_busy {s : State} (h : s.bus.op.isSome = true) (more : List (Bool × Refusal)) (u : State) :
    checked ((s.bus.op.isSome, .busy) :: more) u = .refused .busy := by
  rw [checked, if_pos h]

/-- Settles O5: an overlapping command is refused when it is presented, and each of the seven commands of the bus
controller begins with the check for an operation in progress. -/
theorem busyBlockRefuses : Obligations.BusyBlockRefuses := by
  refine ⟨fun s port bytes rest q i hs hd => ?_, fun s i hi ho => ?_⟩
  · rw [step_request hs hd, present]
  · cases i <;> cases hi <;> exact checked_busy ho _ _

/-! ## The eight clock cycles of an exchange -/

theorem shiftCycles_getElem? (c b : Byte) (k : Fin 8) :
    (shiftCycles c b)[k.val]? = some ⟨c.getLsbD k.val, b.getLsbD k.val⟩ := by
  rw [shiftCycles, List.getElem?_map, List.getElem?_range k.isLt, Option.map_some]

/-- Settles O32. -/
theorem exchangeIsLsbFirst : Obligations.ExchangeIsLsbFirst := fun c b =>
  ⟨by rw [shiftCycles, List.length_map, List.length_range], shiftCycles_getElem? c b, cyclesReceived_shift c b,
    cyclesSent_shift c b⟩

/-! ## The bus controller does not read the inputs -/

section
variable (s : State) (q : List Input)

theorem State.endSession_withInputs : (s.withInputs q).endSession = s.endSession.withInputs q := by
  cases h : s.bus.session with
  | none => rw [State.endSession_none s h, State.endSession_none (s.withInputs q) h]
  | some n => rw [State.endSession_eq s h, State.endSession_eq (s.withInputs q) h]; rfl

theorem State.endSession_op : s.endSession.bus.op = s.bus.op := by
  cases h : s.bus.session with
  | none => rw [State.endSession_none s h]
  | some n => rw [State.endSession_eq s h]

theorem State.settle_withInputs (v : Verdict) : (s.withInputs q).settle v = (s.settle v).withInputs q := by
  cases v with
  | goOn r => rfl
  | done ok e => simp only [State.settle, State.endSession_withInputs]; rfl

theorem State.transfer_withInputs (tXchg : Nat) (c : Byte) (tm : Timing) :
    (s.withInputs q).transfer tXchg c tm = ((s.transfer tXchg c tm).1, (s.transfer tXchg c tm).2.withInputs q) := by
  rw [State.transfer_eq, State.transfer_eq]
  rfl

theorem State.moved_withInputs (p : BusParams) (r : OpRun) : (s.withInputs q).moved p r = (s.moved p r).withInputs q := by
  simp only [State.moved, State.transfer_withInputs]
  rfl

theorem State.turn_withInputs (p : BusParams) : (s.withInputs q).turn p = (s.turn p).withInputs q := by
  cases h : s.bus.op with
  | none => rw [State.turn_of_none h, State.turn_of_none (s := s.withInputs q) h]
  | some r =>
    rw [State.turn_of_some h, State.turn_of_some (s := s.withInputs q) h, State.turnOf_eq, State.turnOf_eq,
      State.moved_withInputs, State.settle_withInputs]
    rfl

/-- A run over turns of the bus controller alone is those turns. -/
theorem run_busTurns (n : Nat) :
    core.run n (s.withInputs (List.replicate n .busTurn)) = .next ((s.turns Config.busParams n).withInputs []) := by
  induction n generalizing s with
  | zero => rfl
  | succ n ih =>
    have hstep : step (s.withInputs (List.replicate (n + 1) .busTurn)) =
        .next ((s.turn Config.busParams).withInputs (List.replicate n .busTurn)) := by
      rw [step_busTurn (q := List.replicate n .busTurn) rfl, ← State.turn_withInputs]
      rfl
    rw [core_run_succ hstep, ih, State.turns_succ]

end

/-! ## An operation ends within its transfers (R208) -/

/-- Enough turns for the transfers that are left end the operation in progress. -/
theorem State.turns_end (p : BusParams) (n : Nat) (s : State)
    (h : ∀ r, s.bus.op = some r → 1 ≤ r.k ∧ r.k ≤ r.kind.transfers ∧ r.kind.transfers < r.k + n) :
    (s.turns p n).bus.op = none := by
  induction n generalizing s with
  | zero =>
    refine Option.eq_none_iff_forall_ne_some.mpr fun r hr => ?_
    obtain ⟨-, hle, hlt⟩ := h r hr
    omega
  | succ n ih =>
    cases hs : s.bus.op with
    | none => rw [State.turns_of_none hs, hs]
    | some r =>
      obtain ⟨h1, hle, hlt⟩ := h r hs
      rw [State.turns_succ, State.turn_of_some hs]
      refine ih _ fun r' hr' => ?_
      rw [State.turnOf_eq] at hr'
      cases hv : r.judges (r.sends s.bufs.inBuf) (s.dev.answerAt 0) with
      | done ok e => rw [hv] at hr'; cases hr'
      | goOn next =>
        rw [hv] at hr'
        cases hr'
        obtain ⟨hkind, -, hk⟩ := OpRun.judges_goOn hv
        have hrange := OpRun.goOn_in_range h1 hle hv
        rw [hkind] at hrange ⊢
        omega

theorem State.openOp_turns_end (s : State) (p : BusParams) (kind : OpKind) (slot : Byte) (sector : U16) :
    ((s.openOp kind slot sector).turns p kind.transfers).bus.op = none := by
  refine State.turns_end p _ _ fun r hr => ?_
  cases hr
  have h1 := kind.one_le_transfers
  simp only [OpRun.start]
  omega

theorem OpKind.transfers_le (kind : OpKind) : kind.transfers ≤ 140 := by
  cases kind <;> decide

/-! ## A command presented transfer by transfer -/

/-- Presented transfer by transfer, a command that leads to t starts in u, whatever the inputs are; at most 140 turns lead
from u to t, and no operation is left in progress. -/
structure StartsTowards (i : Instr) (s t u : State) : Prop where
  starts : ∀ q, startOnly i (s.withInputs q) = .next (u.withInputs q)
  idle : t.bus.op = none
  turns : ∃ n ≤ 140, t = u.turns Config.busParams n

/-- A command's checks do not depend on its effect: where one effect is admitted behind them, any other is. -/
theorem checked_next_of_next {cs : List (Bool × Refusal)} {s t u : State} (h : checked cs s = .next t) :
    checked cs u = .next u :=
  checked_clear (checked_next h).2

section
variable {s t : State}

/-- An operation starts at its first transfer, and its turns end it. -/
theorem startsTowards_of_operate {i : Instr} {kind : OpKind} {slot : Byte} {sector : U16}
    (hi : startOnly i = startOp kind slot sector) (h : operate Config.busParams kind slot sector s = .next t) :
    StartsTowards i s t (s.openOp kind slot sector) := by
  obtain ⟨rfl, -⟩ := checked_next h
  refine ⟨fun q => ?_, s.openOp_turns_end _ kind slot sector, ⟨_, kind.transfers_le, rfl⟩⟩
  rw [hi]
  exact checked_next_of_next h

/-- A command that starts no operation is over when it has been presented. -/
theorem startsTowards_of_checked {i : Instr} {more : List (Bool × Refusal)} {e : State}
    (h : checked ((s.bus.op.isSome, .busy) :: more) e = .next t) (he : e.bus.op = s.bus.op)
    (hi : ∀ q, startOnly i (s.withInputs q) = checked ((s.bus.op.isSome, .busy) :: more) (e.withInputs q)) :
    StartsTowards i s t t := by
  obtain ⟨rfl, hc⟩ := checked_next h
  have ho : s.bus.op.isSome = false := hc _ (List.mem_cons_self ..)
  refine ⟨fun q => ?_, ?_, ⟨0, Nat.zero_le _, rfl⟩⟩
  · rw [hi]
    exact checked_clear hc
  · rw [he]
    simpa using ho

/-- Each command of the bus controller that runs to a next state can be presented transfer by transfer. -/
theorem exists_startsTowards {i : Instr} (hi : i.port = .bus) (h : exec i s = .next t) : ∃ u, StartsTowards i s t u := by
  cases i <;> cases hi
  case busBegin slot => exact ⟨_, startsTowards_of_checked h rfl fun _ => rfl⟩
  case busXfer c timeout predelay =>
    refine ⟨_, startsTowards_of_checked h ?_ fun q => ?_⟩
    · rw [State.transfer_eq]; rfl
    · simp only [startOnly, exec, execBusXfer, busXfer, State.transfer_withInputs]
      rfl
  case busEnd =>
    refine ⟨_, startsTowards_of_checked h s.endSession_op fun q => ?_⟩
    simp only [startOnly, exec, execBusEnd, State.endSession_withInputs]
    rfl
  case mcRead slot sector => exact ⟨_, startsTowards_of_operate rfl h⟩
  case mcProbe slot sector => exact ⟨_, startsTowards_of_operate rfl h⟩
  case mcWrite slot sector => exact ⟨_, startsTowards_of_operate rfl h⟩
  case padPoll slot => exact ⟨_, startsTowards_of_operate rfl h⟩

/-- The turns behind the end of the operation change nothing. -/
theorem StartsTowards.turns_eq {i : Instr} {u : State} (h : StartsTowards i s t u) :
    u.turns Config.busParams 140 = t := by
  obtain ⟨n, hn, rfl⟩ := h.turns
  obtain ⟨m, hm⟩ := Nat.exists_eq_add_of_le hn
  rw [hm, State.turns_add, State.turns_of_none h.idle]

end

/-! ## Decoding at the bus controller's port -/

/-- The decoder's escape flag matters to wire bytes only (R78). -/
theorem decode_bus_esc (pending : Bool) (bytes : List Byte) : decode .bus pending bytes = decode .bus false bytes := by
  cases bytes <;> rfl

theorem decodeSlotSector_port {mk : Byte → U16 → Instr} {c : Byte} {bs rest : List Byte} {i : Instr}
    (hmk : ∀ slot sector, (mk slot sector).port = .bus) (h : decodeSlotSector mk c bs = .ok i rest) : i.port = .bus := by
  unfold decodeSlotSector at h
  split at h <;> cases h
  exact hmk _ _

theorem decodeBus_port {c : Byte} {bs rest : List Byte} {i : Instr} (h : decodeBus c bs = .ok i rest) :
    i.port = .bus := by
  unfold decodeBus at h
  split at h
  · split at h <;> cases h
    rfl
  split at h
  · split at h <;> cases h
    rfl
  split at h
  · cases h; rfl
  split at h
  · exact decodeSlotSector_port (fun _ _ => rfl) h
  split at h
  · exact decodeSlotSector_port (fun _ _ => rfl) h
  split at h
  · exact decodeSlotSector_port (fun _ _ => rfl) h
  split at h
  · split at h <;> cases h
    rfl
  · cases h

/-- What is read at the bus controller's port is a command of the bus controller (R87). -/
theorem decode_bus_port {pending : Bool} {bytes rest : List Byte} {i : Instr}
    (h : decode .bus pending bytes = .ok i rest) : i.port = .bus := by
  cases bytes with
  | nil => cases h
  | cons b bs => exact decodeBus_port h

/-- Settles O46: the first step starts the command as `StartsTowards` says, the 140 others are turns, and as many turns
are enough to end every operation. -/
theorem turnwiseEqualsWhole : Obligations.TurnwiseEqualsWhole := by
  intro s t bytes i hd h
  obtain ⟨u, hu⟩ := exists_startsTowards (s := s.withInputs []) (decode_bus_port hd) h
  have hinputs : t.inputs = [] := (executed_of_exec h).continues.inputs
  have hstep : step (s.withInputs (.request .turnwise .bus bytes :: List.replicate 140 .busTurn)) =
      .next (u.withInputs (List.replicate 140 .busTurn)) := by
    rw [step_request rfl ((decode_bus_esc _ bytes).trans hd)]
    exact hu.starts _
  calc core.run 141 (s.withInputs (.request .turnwise .bus bytes :: List.replicate 140 .busTurn))
      = core.run 140 (u.withInputs (List.replicate 140 .busTurn)) := core_run_succ hstep 140
    _ = .next ((u.turns Config.busParams 140).withInputs []) := run_busTurns u 140
    _ = .next t := by rw [hu.turns_eq, State.withInputs_self hinputs]

end Sys2Proof.Machine

/-! PROOFS. The decoder against the encoder: every instruction is read back, the words of the tables are their instructions,
a code of no row is refused, and a step runs what the bytes decode to (30_encoding.md R78, R87 to R91). -/

namespace Sys2Proof.Machine

/-! ## Reading back an encoding -/

/-- A wire byte has the class of its instruction under that class's escape flag; SYNC has it under either (R78). -/
theorem classifyWire_opcode {i : Instr} {pending : Bool} (hport : i.port = .wire) (hwf : i.wf = true)
    (hesc : i = .sync ∨ pending = i.escContext) : classifyWire pending i.opcode = i := by
  cases i <;> cases hport
  case sync => rfl
  case escape =>
    obtain rfl : pending = false := hesc.resolve_left nofun
    rfl
  case escapedData v =>
    obtain rfl : pending = true := hesc.resolve_left nofun
    have hsync : v ≠ Config.sync := by simpa [Instr.wf] using hwf
    exact if_neg hsync
  case data v =>
    obtain rfl : pending = false := hesc.resolve_left nofun
    obtain ⟨hsync, hescape⟩ : v ≠ Config.sync ∧ v ≠ Config.escape := by simpa [Instr.wf] using hwf
    rw [Instr.opcode, classifyWire, if_neg hsync, if_neg Bool.false_ne_true, if_neg hescape]

theorem decodeSlotSector_split (mk : Byte → U16 → Instr) (c slot : Byte) (sector : U16) (rest : List Byte) :
    decodeSlotSector mk c (slot :: splitU16 sector ++ rest) = .ok (mk slot sector) rest := by
  simp only [splitU16, List.cons_append, List.nil_append, decodeSlotSector, joinU16_split]

/-- The length field of a payload says where the payload ends and the bytes behind it begin. -/
theorem decodeEnc_payload {payload : List Byte} (h : payload.length < 65536) (n : Byte) (rest : List Byte) :
    decodeEnc 0x10 ((Instr.encSend n payload).operands ++ rest) = .ok (.encSend n payload) rest := by
  simp only [Instr.operands, splitU16, List.cons_append, List.nil_append, decodeEnc, payload_length_read_back h,
    List.length_append, Nat.le_add_right, List.take_left, List.drop_left, if_true]

theorem decodeBus_busXfer (cmd : Byte) (timeout predelay : U32) (rest : List Byte) :
    decodeBus 0x31 ((Instr.busXfer cmd timeout predelay).operands ++ rest) =
      .ok (.busXfer cmd timeout predelay) rest := by
  have hxfer : ∀ t3 t2 t1 t0 d3 d2 d1 d0 : Byte,
      decodeBus 0x31 (cmd :: t3 :: t2 :: t1 :: t0 :: d3 :: d2 :: d1 :: d0 :: rest) =
        .ok (.busXfer cmd (joinU32 t3 t2 t1 t0) (joinU32 d3 d2 d1 d0)) rest := by intros; rfl
  simp only [Instr.operands, splitU32, List.cons_append, List.nil_append, hxfer, joinU32_split]

/-- Settles O1: operands of more than one byte are joined from the bytes they are split into, a payload ends where its
length field says, a wire byte has its class, and every other row is its first byte and at most one operand byte. -/
theorem decodeReadsBackEncode : Obligations.DecodeReadsBackEncode := by
  intro i pending rest hwf hwire
  have hclass (hport : i.port = .wire) : decode .wire pending (i.opcode :: rest) = .ok i rest := by
    rw [decode, classifyWire_opcode hport hwf (hwire hport)]
  cases i
  case encSend n payload => exact decodeEnc_payload (by simpa [Instr.wf] using hwf) n rest
  case busXfer cmd timeout predelay => exact decodeBus_busXfer cmd timeout predelay rest
  case mcRead slot sector => exact decodeSlotSector_split .mcRead 0x40 slot sector rest
  case mcProbe slot sector => exact decodeSlotSector_split .mcProbe 0x41 slot sector rest
  case mcWrite slot sector => exact decodeSlotSector_split .mcWrite 0x42 slot sector rest
  case sync | escape | escapedData | data => exact hclass rfl
  all_goals rfl

/-! ## Words of the tables -/

/-- Settles O2: the eleven words, each decoded at its port. -/
theorem writtenWordsDecode : Obligations.WrittenWordsDecode :=
  ⟨rfl, rfl, rfl, rfl, rfl, rfl, rfl, rfl, rfl, rfl, rfl⟩

/-! ## Codes of no row (R91) -/

theorem decodeEnc_unlisted {c : Byte} (h : c ∉ [0x10]) (bs : List Byte) :
    decodeEnc c bs = .bad (.undefinedCmd c) :=
  if_neg (by simpa using h)

theorem decodeDec_unlisted {c : Byte} (h : c ∉ [0x20, 0x21, 0x23]) (bs : List Byte) :
    decodeDec c bs = .bad (.undefinedCmd c) := by
  simp only [List.mem_cons, List.not_mem_nil, or_false, not_or] at h
  simp only [decodeDec, h, if_false]

theorem decodeBus_unlisted {c : Byte} (h : c ∉ [0x30, 0x31, 0x32, 0x40, 0x41, 0x42, 0x43]) (bs : List Byte) :
    decodeBus c bs = .bad (.undefinedCmd c) := by
  simp only [List.mem_cons, List.not_mem_nil, or_false, not_or] at h
  simp only [decodeBus, h, if_false]

/-- A step on bytes that are no instruction is refused, however they are presented (R236). -/
theorem step_bad_request {s : State} {mode : Mode} {port : Port} {bytes : List Byte} {q : List Input} {e : DecodeError}
    (hs : s.inputs = .request mode port bytes :: q) (hd : decode port s.dec.esc bytes = .bad e) :
    step s = .refused (refusalOf e) := by
  simp only [step, advance, hs, accept, request, State.fetch, hd]

/-- Settles O3: at each of the three command ports, a code of no row is undefined whatever is behind it. -/
theorem unlistedCodesAreRefused : Obligations.UnlistedCodesAreRefused := by
  intro s mode port code bytes q hs hport
  have hd : decode port s.dec.esc (code :: bytes) = .bad (.undefinedCmd code) := by
    rcases hport with ⟨rfl, h⟩ | ⟨rfl, h⟩ | ⟨rfl, h⟩
    · exact decodeEnc_unlisted h bytes
    · exact decodeDec_unlisted h bytes
    · exact decodeBus_unlisted h bytes
  exact step_bad_request hs hd

/-! ## A step -/

/-- Settles O4: a request that is presented whole executes its instruction. -/
theorem stepRunsDecodedInstruction : Obligations.StepRunsDecodedInstruction := by
  intro s port bytes rest q i hs hd
  rw [step_request hs hd]
  rfl

end Sys2Proof.Machine

/-! PROOFS. The escape code and the frame: what stands between a frame's first byte and its end, and how long it is
(30_encoding.md R70 to R76, 40_packet_encoder.md R100 to R102, R108). -/

namespace Sys2Proof.Machine

/-- Settles O6: a marker is ESCAPE and one less, every other byte is itself. -/
theorem escapeCode : Obligations.EscapeCode :=
  ⟨esc_of_marker (.inl rfl), esc_of_marker (.inr rfl), fun _ hs he => esc_of_plain hs he⟩

/-- The field values of a frame, in the order of R70: the node number, the length, the payload, the checksum. -/
def frameFields (n : Byte) (payload : List Byte) : List Byte :=
  [n, lengthField payload] ++ payload ++ [checksum n payload]

/-- A frame is SYNC and its field values, each escaped. -/
theorem frame_eq (n : Byte) (payload : List Byte) :
    frame n payload = 0xE0 :: (frameFields n payload).flatMap esc := by
  simp [frame, frameFields]

/-! ## Markers (R76) -/

/-- Every ESCAPE is followed by the second byte of an escaped pair. -/
def EscapesPaired (bytes : List Byte) : Prop :=
  ∀ k : Nat, bytes[k]? = some 0xD0 → bytes[k + 1]? = some 0xDF ∨ bytes[k + 1]? = some 0xCF

theorem escapesPaired_esc (b : Byte) : EscapesPaired (esc b) := by
  intro k hk
  by_cases h : b = 0xE0 ∨ b = 0xD0
  · rw [esc_of_marker h] at hk ⊢
    match k with
    | 0 => rcases h with rfl | rfl <;> decide
    | 1 => rcases h with rfl | rfl <;> revert hk <;> decide
    | k + 2 => simp at hk
  · obtain ⟨hs, he⟩ := not_or.mp h
    rw [esc_of_plain hs he] at hk
    match k with
    | 0 => exact absurd (Option.some.inj hk) he
    | k + 1 => simp at hk

theorem EscapesPaired.append {xs ys : List Byte} (hx : EscapesPaired xs) (hy : EscapesPaired ys) :
    EscapesPaired (xs ++ ys) := by
  intro k hk
  by_cases hlt : k < xs.length
  · rw [List.getElem?_append_left hlt] at hk
    refine (hx k hk).imp ?_ ?_ <;>
    · intro hnext
      rwa [List.getElem?_append_left (List.getElem?_eq_some_iff.mp hnext).1]
  · have hle : xs.length ≤ k := Nat.le_of_not_lt hlt
    rw [List.getElem?_append_right hle] at hk
    rw [List.getElem?_append_right (Nat.le_succ_of_le hle), Nat.succ_sub hle]
    exact hy _ hk

theorem escapesPaired_flatMap_esc (values : List Byte) : EscapesPaired (values.flatMap esc) := by
  induction values with
  | nil => exact fun _ hk => nomatch hk
  | cons v values ih => exact (escapesPaired_esc v).append ih

/-- Settles O9: no escaped field holds a SYNC, and every ESCAPE in one begins a pair. -/
theorem frameMarkersAreUnique : Obligations.FrameMarkersAreUnique := by
  intro n payload _ _
  refine ⟨_, frame_eq n payload, fun hmem => ?_, escapesPaired_flatMap_esc _⟩
  obtain ⟨v, -, hv⟩ := List.mem_flatMap.mp hmem
  exact sync_not_mem_esc v hv

/-! ## Size (R75, R108) -/

/-- A field value that is escaped. -/
def isMarker (b : Byte) : Bool := b == 0xE0 || b == 0xD0

theorem isMarker_iff {b : Byte} : isMarker b = true ↔ b = 0xE0 ∨ b = 0xD0 := by
  simp [isMarker]

/-- Each value takes one wire byte, and a marker one more. -/
theorem length_flatMap_esc (values : List Byte) :
    (values.flatMap esc).length = values.length + values.countP isMarker := by
  induction values with
  | nil => rfl
  | cons v values ih =>
    have hv : (esc v).length = 1 + if isMarker v then 1 else 0 := by
      by_cases h : v = 0xE0 ∨ v = 0xD0
      · rw [esc_length, if_pos h, if_pos (isMarker_iff.mpr h)]
      · rw [esc_length, if_neg h, if_neg (mt isMarker_iff.mp h)]
    rw [List.flatMap_cons, List.length_append, ih, hv, List.countP_cons, List.length_cons]
    omega

theorem frame_length (n : Byte) (payload : List Byte) :
    (frame n payload).length = 4 + payload.length + (frameFields n payload).countP isMarker := by
  rw [frame_eq, List.length_cons, length_flatMap_esc]
  simp only [frameFields, List.length_append, List.length_cons, List.length_nil]
  omega

/-- A node number is no marker, and neither is the length of a payload of 254 bytes: the payload and the checksum, and the
length of a shorter payload, are what can be escaped. -/
theorem countP_frameFields_le {n : Byte} {payload : List Byte} (hn : n ≤ 31 ∨ n = 0xFF) (hp : payload.length ≤ 254) :
    payload.length + (frameFields n payload).countP isMarker ≤ 509 := by
  have hnode : isMarker n = false := by
    rw [Bool.eq_false_iff, Ne, isMarker_iff]
    bv_omega
  have hlen : isMarker (lengthField payload) = true → payload.length ≠ 254 := by
    intro hm h
    rw [lengthField, h] at hm
    exact absurd hm (by decide)
  have hpayload : payload.countP isMarker ≤ payload.length := List.countP_le_length
  have hchecksum : [checksum n payload].countP isMarker ≤ 1 := List.countP_le_length
  have hcount : (frameFields n payload).countP isMarker = payload.countP isMarker +
      [checksum n payload].countP isMarker + if isMarker (lengthField payload) then 1 else 0 := by
    simp [frameFields, List.countP_cons, hnode]
  by_cases hm : isMarker (lengthField payload) = true
  · have := hlen hm
    rw [hcount, if_pos hm]
    omega
  · rw [hcount, if_neg hm]
    omega

/-- Settles O10: a frame is SYNC and three fields beside the payload, and each marker among the fields is one byte more. -/
theorem frameSize : Obligations.FrameSize := by
  intro n payload hn hp
  have hlength := frame_length n payload
  have hbound := countP_frameFields_le hn hp
  exact ⟨hlength, by omega, by omega⟩

end Sys2Proof.Machine

/-! PROOFS. The byte codes of the peripheral bus as instructions: a code that is sent, and a response that comes in, each in
an operation in progress and outside one (30_encoding.md R81 to R86, 43_peripheral_operations.md R191 to R206, R208). -/

namespace Sys2Proof.Machine

/-! ## One byte code -/

/-- A byte code that is sent is its own byte going out (R81, R82, R85). -/
theorem exec_of_lineOut {i : Instr} (h : i.port = .lineOut) (s : State) :
    exec i s = sendCode Config.busParams i.opcode s := by
  cases i <;> cases h <;> rfl

/-- A byte code that is received is its own byte coming in (R83, R205). -/
theorem exec_of_response {i : Instr} (h : i.port = .mcIn ∨ i.port = .padIn) (s : State) :
    exec i s = .next (s.answered Config.busParams i.opcode) := by
  cases i <;> rcases h with h | h <;> cases h <;> rfl

theorem lineOut_of_sent {i : Instr} {c : Byte}
    (h : i = .selPad ∧ c = 0x01 ∨ i = .selMc ∧ c = 0x81 ∨ i = .cmdReadR ∧ c = 0x52 ∨ i = .cmdWriteW ∧ c = 0x57 ∨
      i = .cmdPollB ∧ c = 0x42 ∨ i = .filler ∧ c = 0x00) : i.port = .lineOut ∧ i.opcode = c := by
  rcases h with ⟨rfl, rfl⟩ | ⟨rfl, rfl⟩ | ⟨rfl, rfl⟩ | ⟨rfl, rfl⟩ | ⟨rfl, rfl⟩ | ⟨rfl, rfl⟩ <;> exact ⟨rfl, rfl⟩

/-! ## Outside an operation -/

/-- With no operation in progress a response is listed behind those that are listed already. -/
theorem exec_response_idle {s : State} {i : Instr} (hport : i.port = .mcIn ∨ i.port = .padIn) (ho : s.bus.op = none) :
    exec i s = .next { s with dev := { s.dev with answers := s.dev.answers ++ [i.opcode] } } := by
  rw [exec_of_response hport, State.answered_of_none _ _ s ho]
  rfl

/-- Settles O50: each of the seven codes is a response at its device's port. -/
theorem receivedCodeIsListed : Obligations.ReceivedCodeIsListed := by
  intro s i b hi ho
  rcases hi with ⟨rfl, rfl⟩ | ⟨rfl, rfl⟩ | ⟨rfl, rfl⟩ | ⟨rfl, rfl⟩ | ⟨rfl, rfl⟩ | ⟨rfl, rfl⟩ | ⟨rfl, rfl⟩ <;>
    exact exec_response_idle (by decide) ho

/-- Settles O48: with no operation in progress a byte code is BUS_XFER of its byte. -/
theorem sentCodeIsOneTransfer : Obligations.SentCodeIsOneTransfer := by
  intro s i c hi ho
  obtain ⟨hport, rfl⟩ := lineOut_of_sent hi
  have hxfer : exec i s = busXfer Config.tXchgUs i.opcode (Config.busParams.line i.opcode) s := by
    rw [exec_of_lineOut hport, sendCode, ho]
    rfl
  rw [hxfer, busXfer, ho]
  refine ⟨fun hs => ?_, fun hs => ?_⟩
  · obtain ⟨n, hn⟩ := Option.isSome_iff_exists.mp hs
    refine ⟨_, checked_clear (by simp [hn]), ?_⟩
    rw [State.transfer_eq]
    exact ⟨rfl, rfl, rfl, rfl, ho, rfl, rfl, rfl, rfl⟩
  · rw [hs]
    rfl

/-! ## A transfer of an operation in progress -/

/-- A transfer that lets the operation go on: it is at its next transfer, with its session open and no result. -/
theorem State.turnOf_goOn {s : State} {r r' : OpRun} {p : BusParams}
    (hv : r.judges (r.sends s.bufs.inBuf) (s.dev.answerAt 0) = .goOn r') :
    s.turnOf p r = (s.moved p r).withBus { (s.moved p r).bus with op := some r' } := by
  rw [State.turnOf_eq, hv, State.settle_goOn]

/-- A transfer that ends the operation closes its session and returns its result (R190). -/
theorem State.turnOf_done {s : State} {r : OpRun} {p : BusParams} {n : Fin 2} {ok : Bool} {e : List Event}
    (hn : s.bus.session = some n) (hv : r.judges (r.sends s.bufs.inBuf) (s.dev.answerAt 0) = .done ok e) :
    s.turnOf p r = { s.moved p r with
      bus := { (s.moved p r).bus with session := none, sel := s.bus.sel.set n true, op := none }
      dev := { (s.moved p r).dev with seen := (s.moved p r).dev.seen ++ [.select n true] }
      events := (s.moved p r).events ++ e
      results := s.results ++ [.bool ok] } := by
  rw [State.turnOf_eq, hv, State.settle_done _ ((s.moved_session p r).trans hn), State.moved_sel, State.moved_results]

/-- The device events are not about time (R232). -/
theorem untimedEvents_failureOn (r : OpRun) (b : Byte) (ok : Bool) :
    untimedEvents (if ok then [] else [r.failureOn b]) = if ok then [] else [r.failureOn b] := by
  cases ok with
  | true => rfl
  | false =>
    have h : r.failureOn b ≠ .ackTimeout := by
      unfold OpRun.failureOn
      cases r.kind <;> simp only [] <;> (repeat' split) <;> simp
    simp [untimedEvents, h]

/-- A byte code is the byte of each transfer at which it is due (R81, R82, R85). -/
theorem OpRun.sends_of_dueCode {r : OpRun} {i : Instr} (h : r.dueCode i) (input : Vector Byte 128) :
    r.sends input = i.opcode := by
  obtain ⟨kind, sector, k, id0, chk, rx⟩ := r
  rcases h with ⟨rfl, hk, h1⟩ | ⟨rfl, hk, h1⟩ | ⟨rfl, hk, h1⟩ | ⟨rfl, hk, h1⟩ | ⟨rfl, hk, h1⟩ | ⟨rfl, h3, hk⟩
  · subst hk h1; rfl
  · subst h1
    cases kind
    case padPoll => exact absurd rfl hk
    all_goals rfl
  · subst h1
    rcases hk with hk | hk <;> subst hk <;> rfl
  · subst hk h1; rfl
  · subst hk h1; rfl
  · replace h3 : 3 ≤ k := h3
    have h1 : k ≠ 1 := by omega
    have h2 : k ≠ 2 := by omega
    rcases hk with hk | hk | ⟨hk, h5, h6⟩ | ⟨hk, hread⟩ <;> subst hk
    · simp [OpRun.sends, OpRun.probeSends, Instr.opcode, h1, h2]
    · simp [OpRun.sends, OpRun.padSends, Instr.opcode, h1, h2]
    · simp [OpRun.sends, OpRun.readSends, Instr.opcode, h1, h2, h5, h6]
    · replace hread : k ≤ 4 ∨ 136 ≤ k := hread
      have h5 : k ≠ 5 := by omega
      have h6 : k ≠ 6 := by omega
      have h7 : ¬(7 ≤ k ∧ k ≤ 134) := by omega
      have h135 : k ≠ 135 := by omega
      simp only [OpRun.sends, OpRun.writeSends, Instr.opcode, h1, h2, h5, h6, h7, h135, if_false]

/-- A byte code that the next transfer sends is that transfer (R191). -/
theorem exec_sent_next {s : State} {i : Instr} {r : OpRun} (hport : i.port = .lineOut) (ho : s.bus.op = some r)
    (hc : r.sends s.bufs.inBuf = i.opcode) : exec i s = .next (s.turnOf Config.busParams r) := by
  rw [exec_of_lineOut hport, sendCode, ho]
  simp only [hc]
  rw [checked_clear (by simp), State.turn_of_some ho]

/-- A byte code that the next transfer does not send is refused (R234). -/
theorem exec_sent_busy {s : State} {i : Instr} {r : OpRun} (hport : i.port = .lineOut) (ho : s.bus.op = some r)
    (hc : r.sends s.bufs.inBuf ≠ i.opcode) : exec i s = .refused .busy := by
  rw [exec_of_lineOut hport, sendCode, ho]
  exact if_pos (bne_iff_ne.mpr hc)

/-- Settles O49: the transfer's verdict is what the rules say of its response, and so are the buffers it writes. -/
theorem sentCodeAtItsPosition : Obligations.SentCodeAtItsPosition := by
  intro s i c r ho hi
  obtain ⟨hport, rfl⟩ := lineOut_of_sent hi
  refine ⟨exec_sent_busy hport ho, fun hdue => OpRun.sends_of_dueCode hdue _, fun n hn h1 h2 hc => ?_⟩
  refine ⟨_, exec_sent_next hport ho hc, ?_⟩
  rintro b rfl
  have hjudges := OpRun.judges_eq r (r.sends s.bufs.inBuf) (s.dev.answerAt 0) h1 h2
  have hbufs := State.turnOf_bufs Config.busParams s r
  refine ⟨State.turnOf_drawn .., State.turnOf_dec .., State.turnOf_chan .., State.turnOf_inputs .., ?_, fun j => ?_,
    fun j => ?_, fun hnone => ?_, fun ok hok => ?_⟩
  · rw [hbufs, OpRun.stores_inBuf]
  · rw [hbufs]
    exact OpRun.stores_outBuf_get r _ _ j
  · rw [hbufs]
    exact OpRun.stores_padBuf_get r _ _ j h1 h2
  · change r.resultOn (s.dev.answerAt 0) = none at hnone
    rw [hnone] at hjudges
    rw [State.turnOf_goOn hjudges, hc]
    simp [hc, hn, Device.response]
  · change r.resultOn (s.dev.answerAt 0) = some ok at hok
    rw [hok] at hjudges
    rw [State.turnOf_done hn hjudges]
    refine ⟨?_, rfl, rfl, rfl, rfl, ?_⟩
    · simp [hc, Device.response]
    · rw [untimedEvents_append, State.moved_events, untimedEvents_failureOn]
      rfl

/-! ## A response in an operation in progress -/

/-- Settles O51: at its position each code is judged to end the operation, and no buffer is written there. -/
theorem receivedCodeEndsOperation : Obligations.ReceivedCodeEndsOperation := by
  intro s i r n ok e ho hn hi
  have hcode : i.port = .mcIn ∧ untimedEvents e = e ∧ (∀ sent, r.judges sent i.opcode = .done ok e) ∧
      ∀ bufs, r.stores i.opcode bufs = bufs := by
    obtain ⟨kind, sector, k, id0, chk, rx⟩ := r
    rcases hi with ⟨rfl, hk, hkind, rfl, rfl⟩ | ⟨rfl, hk, hkind, rfl, rfl⟩ | ⟨rfl, hk, hkind, hchk, rfl, rfl⟩ |
      ⟨rfl, hk, hkind, hchk, rfl, rfl⟩ | ⟨rfl, hk, hkind, rfl, rfl⟩ | ⟨rfl, hk, hkind, rfl, rfl⟩ |
      ⟨rfl, hk, hkind, rfl, rfl⟩ <;> subst hk
    · cases kind
      case padPoll => exact absurd rfl hkind
      all_goals exact ⟨rfl, rfl, fun _ => rfl, fun _ => rfl⟩
    · subst hkind; exact ⟨rfl, rfl, fun _ => rfl, fun _ => rfl⟩
    · subst hkind
      obtain rfl : chk = rx := hchk
      exact ⟨rfl, rfl, fun _ => if_neg (not_not_intro rfl), fun _ => rfl⟩
    · subst hkind
      exact ⟨rfl, rfl, fun _ => if_pos hchk, fun _ => rfl⟩
    · subst hkind; exact ⟨rfl, rfl, fun _ => rfl, fun _ => rfl⟩
    · subst hkind; exact ⟨rfl, rfl, fun _ => rfl, fun _ => rfl⟩
    · subst hkind; exact ⟨rfl, rfl, fun _ => rfl, fun _ => rfl⟩
  obtain ⟨hport, he, hjudges, hstores⟩ := hcode
  rw [exec_of_response (.inl hport), State.answered_of_some _ _ s ho,
    State.turnOf_done (s := s.withDev { s.dev with answers := i.opcode :: s.dev.answers }) hn (hjudges _)]
  refine ⟨_, rfl, rfl, ?_, rfl, rfl, rfl, ?_, rfl, rfl, rfl⟩
  · simp [he]
  · simpa using hstores s.bufs

/-- Settles O52: at its position each code is judged to let the operation go on, and no buffer is written there. -/
theorem receivedCodeGoesOn : Obligations.ReceivedCodeGoesOn := by
  intro s i r ho hi
  have hcode : (i.port = .mcIn ∨ i.port = .padIn) ∧ (∀ bufs, r.stores i.opcode bufs = bufs) ∧
      ∃ r', (∀ sent, r.judges sent i.opcode = .goOn r') ∧
        (i = .mcId0 → r'.id0 = 0x5A) ∧ (i = .padId0 → r'.id0 = 0x41) := by
    obtain ⟨kind, sector, k, id0, chk, rx⟩ := r
    rcases hi with ⟨rfl, hk, hkind⟩ | ⟨rfl, hk, hkind⟩ | ⟨rfl, hk, hkind⟩ | ⟨rfl, hk, hkind, hid0⟩ <;>
      subst hk hkind
    · exact ⟨.inl rfl, fun _ => rfl, _, fun _ => rfl, nofun, nofun⟩
    · exact ⟨.inl rfl, fun _ => rfl, _, fun _ => rfl, fun _ => rfl, nofun⟩
    · exact ⟨.inr rfl, fun _ => rfl, _, fun _ => rfl, nofun, fun _ => rfl⟩
    · subst hid0
      exact ⟨.inr rfl, fun _ => rfl, _, fun _ => rfl, nofun, nofun⟩
  obtain ⟨hport, hstores, r', hjudges, hmc, hpad⟩ := hcode
  obtain ⟨hkind, -, hk⟩ := OpRun.judges_goOn (hjudges 0)
  rw [exec_of_response hport, State.answered_of_some _ _ s ho,
    State.turnOf_goOn (s := s.withDev { s.dev with answers := i.opcode :: s.dev.answers }) (hjudges _)]
  refine ⟨_, r', rfl, rfl, hk, hkind, hmc, hpad, rfl, rfl, rfl, ?_, rfl, rfl, rfl⟩
  simpa using hstores s.bufs

end Sys2Proof.Machine

/-! PROOFS. The checksum as a sum of natural numbers, and ENC_SEND: its refusals in their order, and the frame and the flush
on the channel (40_packet_encoder.md R100 to R105). -/

namespace Sys2Proof.Machine

/-! ## Checksum (R100) -/

/-- The first payload byte is added to the node number, and the rest to their sum. -/
theorem checksum_cons (n b : Byte) (payload : List Byte) : checksum n (b :: payload) = checksum (n + b) payload := rfl

/-- Settles O7, by induction on the payload: the wrap-around of each addition is lost in the final remainder. -/
theorem checksumIsSumMod256 : Obligations.ChecksumIsSumMod256 := by
  intro n payload
  induction payload generalizing n with
  | nil => exact (Nat.mod_eq_of_lt n.isLt).symm
  | cons b payload ih =>
    calc (checksum n (b :: payload)).toNat
      _ = ((n + b).toNat + (payload.map BitVec.toNat).sum) % 256 := by rw [checksum_cons, ih]
      _ = (n.toNat + b.toNat + (payload.map BitVec.toNat).sum) % 256 := by rw [BitVec.toNat_add, Nat.mod_add_mod]
      _ = (n.toNat + ((b :: payload).map BitVec.toNat).sum) % 256 := by
        rw [List.map_cons, List.sum_cons, Nat.add_assoc]

/-! ## ENC_SEND (R103 to R105) -/

theorem payloadOk_iff {payload : List Byte} : payloadOk payload = true ↔ payload.length ≤ 254 :=
  decide_eq_true_iff

/-- A node number no packet may carry is refused, whatever the payload is (R104). -/
theorem exec_encSend_badNode {n : Byte} (hn : ¬packetNodeOk n = true) (payload : List Byte) (s : State) :
    exec (.encSend n payload) s = .refused .node :=
  if_pos (by simpa using hn)

/-- Behind a legal node number, a payload that is too long is refused (R105). -/
theorem exec_encSend_tooLong {n : Byte} {payload : List Byte} (hn : packetNodeOk n = true)
    (hp : ¬payloadOk payload = true) (s : State) : exec (.encSend n payload) s = .refused .len :=
  (if_neg (by simpa using hn)).trans (if_pos (by simpa using hp))

/-- An admitted packet's frame is written, and one flush follows (R103). -/
theorem exec_encSend_admitted {n : Byte} {payload : List Byte} (hn : packetNodeOk n = true)
    (hp : payloadOk payload = true) (s : State) :
    exec (.encSend n payload) s = .next (((s.chanWrite (frame n payload)).chanFlush).returns .unit) :=
  checked_clear (by simp [hn, hp])

/-- Settles O8: the frame is SYNC and the escaped fields in the order of R70, and the two checks stand in their order. -/
theorem encSendWritesFrame : Obligations.EncSendWritesFrame := by
  intro s n payload
  refine ⟨rfl, fun hn hp => ?_, fun hn => ?_, fun hn hp => ?_⟩
  · rw [exec_encSend_admitted (packetNodeOk_iff.mpr hn) (payloadOk_iff.mpr hp)]
    rfl
  · exact exec_encSend_badNode (mt packetNodeOk_iff.mp hn) payload s
  · exact exec_encSend_tooLong (packetNodeOk_iff.mpr hn) (mt payloadOk_iff.mp (Nat.not_le_of_lt hp)) s

end Sys2Proof.Machine

/-! PROOFS. Frames as the decoder takes them: the round trip, what a changed value does to the checksum byte, and frames for
another node under the two hunt modes (41_packet_decoder.md R124, R125, R128, R137 to R139). -/

namespace Sys2Proof.Machine

/-! ## The checksum arm (R128) -/

section
variable {d : Dec} {v : Byte}

theorem Dec.chkArm_match (h : v = checksum d.node d.payload) :
    d.chkArm v = ⟨d.drop, some ⟨d.node, d.payload, v⟩, some (.packet ⟨d.node, d.payload, v⟩)⟩ :=
  if_pos h

theorem Dec.chkArm_mismatch (h : v ≠ checksum d.node d.payload) :
    d.chkArm v = ⟨d.drop, none, some (.checksum v (checksum d.node d.payload))⟩ :=
  if_neg h

end

/-! ## Round trip (R137, R139) -/

/-- Settles O22: the checksum arm decides at the frame's last byte, where the received checksum is the computed one. -/
theorem frameRoundTrip : Obligations.FrameRoundTrip := by
  intro mode d n payload hn hp
  obtain ⟨ev, d', hd', hfeed⟩ := feed_frame (mode := mode) d n (payload.map esc) payload (esc (checksum n payload))
    (checksum n payload) hn hp (forall_esc payload) (wireOf_esc _)
  have hnode : d'.node = n := by rw [hd']
  have hpayload : d'.payload = payload := by rw [hd']
  have hmatch : checksum n payload = checksum d'.node d'.payload := by rw [hnode, hpayload]
  rw [Dec.chkArm_match hmatch, hnode, hpayload] at hfeed
  have hframe : feedBytes mode d (frame n payload) = _ := hfeed
  have hlength : (frame n payload).length - 1 = ([0xE0] ++ esc n ++ esc (lengthField payload) ++
      (payload.map esc).flatten).length + ((esc (checksum n payload)).length - 1) := by
    have hpos : 0 < (esc (checksum n payload)).length := List.length_pos_iff.mpr (esc_ne_nil _)
    rw [frame, List.length_append, Nat.add_sub_assoc hpos, List.flatMap_def]
  rw [hframe, hlength]
  exact ⟨rfl, rfl, rfl, rfl⟩

/-- No stream changes the local node number (R131). -/
theorem feedBytes_localNode (mode : HuntMode) (d : Dec) (bytes : List Byte) :
    (feedBytes mode d bytes).dec.localNode = d.localNode := by
  induction bytes generalizing d with
  | nil => rfl
  | cons r rs ih => rw [feedBytes_cons, ih, decStep_localNode]

/-- Settles O25: the bytes before the frame lead to some record with the same local node number, and from every record the
frame is decoded. -/
theorem droppedBytesLeaveNothing : Obligations.DroppedBytesLeaveNothing := by
  intro mode d before n payload hn hp
  have hn' : n = (feedBytes mode d before).dec.localNode ∨ n = 0xFF := by rwa [feedBytes_localNode]
  obtain ⟨houts, -⟩ := frameRoundTrip mode (feedBytes mode d before).dec n payload hn' hp
  rw [feedBytes_append, houts, ← List.append_assoc, List.getLast?_concat]

/-! ## Tampered frames (R138) -/

theorem flipBit_ne (b : Byte) (k : Fin 8) : flipBit b k ≠ b := by
  revert b k
  decide

/-- A field whose own byte is flipped carries another value, unless the flip makes a marker of it. -/
theorem tamperedField_carries {b wire : Byte} {k : Fin 8} (hs : wire ≠ 0xE0) (he : wire ≠ 0xD0)
    (hw : wire = flipBit ((esc b).getLastD 0) k) : ∃ v, wireOf (tamperedField b wire) v ∧ v ≠ b := by
  by_cases hb : b = 0xE0 ∨ b = 0xD0
  · rw [esc_of_marker hb] at hw
    refine ⟨wire + 1, .inr ⟨wire, by rw [tamperedField, esc_of_marker hb]; rfl, hs, rfl⟩, fun h => ?_⟩
    have hback : wire = b - 1 := by rw [← h, BitVec.add_sub_cancel]
    exact flipBit_ne (b - 1) k (hw.symm.trans hback)
  · obtain ⟨hbs, hbe⟩ := not_or.mp hb
    rw [esc_of_plain hbs hbe] at hw
    refine ⟨wire, .inl ⟨by rw [tamperedField, esc_of_plain hbs hbe]; rfl, hs, he⟩, fun h => ?_⟩
    exact flipBit_ne b k (hw.symm.trans h)

/-- One other payload value gives another checksum (R100). -/
theorem checksum_replace_ne {v b : Byte} (h : v ≠ b) (n : Byte) (front back : List Byte) :
    checksum n (front ++ [v] ++ back) ≠ checksum n (front ++ [b] ++ back) := by
  simp only [checksum_append, checksum_cons, checksum_nil, checksum_add]
  exact (add_right_injective (checksum (checksum n front) back)).ne h

/-- A frame whose checksum field carries another value than the checksum gives no packet. -/
theorem feed_frame_mismatch {mode : HuntMode} {d : Dec} {n : Byte} {ws : List (List Byte)} {vs : List Byte}
    {wc : List Byte} {c : Byte} (hn : n = d.localNode ∨ n = 0xFF) (hl : vs.length ≤ 254)
    (hws : List.Forall₂ wireOf ws vs) (hwc : wireOf wc c) (hc : c ≠ checksum n vs) :
    ∀ o ∈ (feedBytes mode d ([0xE0] ++ esc n ++ esc (lengthField vs) ++ ws.flatten ++ wc)).outs, o = none := by
  obtain ⟨ev, d', rfl, hfeed⟩ := feed_frame (mode := mode) d n ws vs wc c hn hl hws hwc
  rw [hfeed, Dec.chkArm_mismatch hc]
  intro o ho
  rw [← List.replicate_succ'] at ho
  exact List.eq_of_mem_replicate ho

/-- Settles O26: a flip changes one value, so the received and the computed checksum differ. -/
theorem tamperedFramesGiveNoPacket : Obligations.TamperedFramesGiveNoPacket := by
  intro mode d n wire k hn hs he
  refine ⟨fun b front back hlen hw => ?_, fun payload hlen hw => ?_⟩
  · obtain ⟨v, hv, hne⟩ := tamperedField_carries hs he hw
    have hws : List.Forall₂ wireOf (front.map esc ++ [tamperedField b wire] ++ back.map esc) (front ++ [v] ++ back) :=
      List.rel_append (List.rel_append (forall_esc front) (.cons hv .nil)) (forall_esc back)
    have hlen' : (front ++ [v] ++ back).length = (front ++ [b] ++ back).length := by simp
    have hfield : lengthField (front ++ [v] ++ back) = lengthField (front ++ [b] ++ back) := by
      rw [lengthField, hlen', lengthField]
    have h := feed_frame_mismatch (mode := mode) hn (hlen'.trans_le hlen) hws (wireOf_esc _)
      (checksum_replace_ne hne n front back).symm
    rw [hfield] at h
    simpa only [List.flatten_append, List.flatten_singleton, ← List.flatMap_def, ← List.append_assoc] using h
  · obtain ⟨c, hc, hne⟩ := tamperedField_carries hs he hw
    exact feed_frame_mismatch hn hlen (forall_esc payload) hc hne

/-! ## Frames for another node -/

/-- A decoder that hunts ignores a stream without a SYNC (R125). -/
theorem feedBytes_hunting {mode : HuntMode} {d : Dec} (hh : d.hunting mode = true) {bytes : List Byte}
    (hb : Config.sync ∉ bytes) : feedBytes mode d bytes = ⟨d, List.replicate bytes.length none, []⟩ := by
  induction bytes with
  | nil => rfl
  | cons r rs ih =>
    obtain ⟨hr, hrs⟩ := not_or.mp (mt List.mem_cons.mpr hb)
    rw [feedBytes_cons, decStep_hunting (Ne.symm hr) hh, ih hrs]
    rfl

/-- An address byte of another node drops the frame (R124). -/
theorem Dec.addrArm_mismatch {d : Dec} {v : Byte} (h : ¬(v = d.localNode ∨ v = 0xFF)) :
    d.addrArm v = ⟨d.drop, none, some (.addrMismatch v)⟩ :=
  if_neg h

/-- SYNC and the address of another node leave the decoder as a drop does, with no packet. -/
theorem feed_otherAddress {mode : HuntMode} {d : Dec} {n : Byte} (hn : ¬(n = d.localNode ∨ n = 0xFF)) :
    (feedBytes mode d (0xE0 :: esc n)).dec = d.drop ∧ ∀ o ∈ (feedBytes mode d (0xE0 :: esc n)).outs, o = none := by
  have haddr : d.syncArm.dec.phaseArm n = ⟨d.drop, none, some (.addrMismatch n)⟩ := Dec.addrArm_mismatch hn
  rw [feedBytes_cons, decStep_sync, feed_wireOf (wireOf_esc n) (Dec.hunting_eq_false (.inr (.inl rfl))) rfl, haddr]
  refine ⟨rfl, fun o ho => ?_⟩
  rcases List.mem_cons.mp ho with rfl | ho
  · rfl
  · rw [← List.replicate_succ'] at ho
    exact List.eq_of_mem_replicate ho

/-- Behind the address, no byte of a frame is a SYNC (R76). -/
theorem frame_eq_address_append (n : Byte) (payload : List Byte) :
    ∃ rest, frame n payload = (0xE0 :: esc n) ++ rest ∧ Config.sync ∉ rest := by
  refine ⟨(lengthField payload :: payload ++ [checksum n payload]).flatMap esc, frame_eq n payload, fun hmem => ?_⟩
  obtain ⟨v, -, hv⟩ := List.mem_flatMap.mp hmem
  exact sync_not_mem_esc v hv

/-- Settles O23: the address drops the frame and disarms the decoder, which ignores the rest. -/
theorem strictDropsOtherNodes : Obligations.StrictDropsOtherNodes := by
  intro d n payload _ hlocal hbroadcast _ o ho
  obtain ⟨hdec, houts⟩ := feed_otherAddress (mode := .strict) (d := d) (not_or.mpr ⟨hlocal, hbroadcast⟩)
  obtain ⟨rest, hframe, hrest⟩ := frame_eq_address_append n payload
  rw [hframe, feedBytes_append, hdec, feedBytes_hunting (Dec.hunting_strict rfl rfl) hrest] at ho
  rcases List.mem_append.mp ho with ho | ho
  · exact houts o ho
  · exact List.eq_of_mem_replicate ho

/-- Refutes O24: a decoder of node 1 drops the address 5 of the frame, and takes the payload 01 00 01 behind it as address,
length and checksum of a packet (R124). -/
theorem not_literalDropsOtherNodes : ¬ Obligations.LiteralDropsOtherNodes := by
  intro h
  have hnone := h ⟨.waitSync, false, 0, 0, 0, [], false, 1⟩ 5 [1, 0, 1] (by decide) (by decide) (by decide) (by decide)
    (by decide) (some ⟨1, [], 1⟩) (by decide)
  cases hnone

end Sys2Proof.Machine

/-! PROOFS. What one byte does, arm by arm, and the escaped forms an encoder never sends (41_packet_decoder.md R120 to R128,
R140). -/

namespace Sys2Proof.Machine

/-! ## Markers and the hunt (R121, R122, R125) -/

/-- Settles O12: the SYNC arm is the first of dec_step. -/
theorem syncStartsFreshPacket : Obligations.SyncStartsFreshPacket := decStep_sync

/-- Settles O14: where the decoder does not hunt and no escape is pending, the marker arm applies. -/
theorem escapeMarkerIsPending : Obligations.EscapeMarkerIsPending := fun _ _ hh he =>
  decStep_marker (Dec.hunting_eq_false hh) he

/-- Two steps agree in everything but the armed flag. -/
def DecStep.AgreesButArmed (x y : DecStep) : Prop :=
  x.out = y.out ∧ x.event = y.event ∧ { x.dec with armed := false } = { y.dec with armed := false }

/-- No arm on a value reads the armed flag. -/
theorem Dec.phaseArm_agreesButArmed (d : Dec) (v : Byte) :
    (Dec.phaseArm { d with armed := true } v).AgreesButArmed (d.phaseArm v) := by
  cases hp : d.phase <;> simp only [Dec.phaseArm, hp]
  case waitSync => simp only [Dec.addrArm]; split <;> exact ⟨rfl, rfl, rfl⟩
  case gotAddress => simp only [Dec.lenArm]; split <;> exact ⟨rfl, rfl, rfl⟩
  case receivingData => exact ⟨rfl, rfl, by simp only [Dec.dataArm, hp]⟩
  case receivedAll => simp only [Dec.chkArm]; split <;> exact ⟨rfl, rfl, rfl⟩

/-- Under LITERAL nothing reads the armed flag. -/
theorem decStep_literal_agreesButArmed (d : Dec) (r : Byte) :
    (decStep .literal { d with armed := true } r).AgreesButArmed (decStep .literal d r) := by
  have hliteral : ∀ d' : Dec, d'.hunting .literal = false := fun _ => Dec.hunting_eq_false (.inr (.inr rfl))
  rcases decStep_cases .literal d r with ⟨rfl, h⟩ | ⟨-, hh, -⟩ | ⟨rfl, -, he, h⟩ | ⟨hr, he, -, h⟩
  · exact ⟨rfl, rfl, rfl⟩
  · rw [hliteral] at hh
    cases hh
  · rw [h, decStep_marker (d := { d with armed := true }) (hliteral _) he]
    exact ⟨rfl, rfl, rfl⟩
  · rw [h, decStep_value (d := { d with armed := true }) hr (hliteral _) he]
    exact Dec.phaseArm_agreesButArmed d.clearEscape _

/-- Settles O13: under STRICT the decoder hunts and ignores the byte, under LITERAL the flag is not read. -/
theorem strictHuntIgnoresBytes : Obligations.StrictHuntIgnoresBytes :=
  ⟨fun _ _ hp ha hr => decStep_hunting hr (Dec.hunting_strict hp ha), decStep_literal_agreesButArmed⟩

/-! ## The phase arms (R123 to R128) -/

section
variable {d : Dec} {v : Byte}

theorem Dec.phaseArm_waitSync (hp : d.phase = .waitSync) : d.phaseArm v = d.addrArm v := by
  rw [Dec.phaseArm, hp]

theorem Dec.phaseArm_gotAddress (hp : d.phase = .gotAddress) : d.phaseArm v = d.lenArm v := by
  rw [Dec.phaseArm, hp]

theorem Dec.phaseArm_receivingData (hp : d.phase = .receivingData) : d.phaseArm v = d.dataArm v := by
  rw [Dec.phaseArm, hp]

theorem Dec.phaseArm_receivedAll (hp : d.phase = .receivedAll) : d.phaseArm v = d.chkArm v := by
  rw [Dec.phaseArm, hp]

/-- A byte that is no marker does what its phase's arm does on its unescaped value. -/
theorem decStep_unescaped {mode : HuntMode} {r : Byte} (hr : r ≠ 0xE0) (hh : d.hunting mode = false)
    (he : ¬(d.esc = false ∧ r = 0xD0)) (hv : v = if d.esc then r + 1 else r) :
    decStep mode d r = d.clearEscape.phaseArm v := by
  rw [hv]
  exact decStep_value hr hh he

/-- The checksum arm leaves a fresh, unarmed record on a match and on a mismatch alike. -/
theorem Dec.chkArm_dec : (d.chkArm v).dec = d.drop := by
  unfold Dec.chkArm
  split <;> rfl

/-- In a frame whose length is known, the payload is no longer than that length, which is at most 254 (R28, R41). -/
theorem Dec.Inv.payload_bounds (h : d.Inv) (hp : d.phase = .receivingData ∨ d.phase = .receivedAll) :
    d.count ≤ d.len ∧ d.len ≤ 254 ∧ d.payload.length ≤ 254 := by
  obtain ⟨-, hlength, hphase⟩ := h
  have hbounds : d.count ≤ d.len ∧ d.len ≤ 254 := by
    rcases hp with hp | hp <;> rw [hp] at hphase
    · exact ⟨BitVec.le_of_lt hphase.1, hphase.2.1⟩
    · exact ⟨BitVec.le_of_eq hphase.1, hphase.2.1⟩
  exact ⟨hbounds.1, hbounds.2, by bv_omega⟩

end

/-- Settles O15: in WaitSync a value reaches the address arm. -/
theorem addressFilter : Obligations.AddressFilter := by
  intro mode d r hp harmed hr he v hv
  have hstep : decStep mode d r = d.clearEscape.addrArm v :=
    (decStep_unescaped hr (Dec.hunting_eq_false (.inr harmed)) he hv).trans (Dec.phaseArm_waitSync hp)
  rw [hstep]
  exact ⟨fun haccepted => if_pos haccepted, fun hother => Dec.addrArm_mismatch hother⟩

/-- Settles O16: in GotAddress a value reaches the length arm. (The encoder's length field has the plain name.) -/
theorem Dec.lengthField : Obligations.LengthField := by
  intro mode d r hp hr he v hv
  have hstep : decStep mode d r = d.clearEscape.lenArm v :=
    (decStep_unescaped hr (Dec.hunting_eq_false (.inl (by simp [hp]))) he hv).trans (Dec.phaseArm_gotAddress hp)
  rw [hstep]
  refine ⟨fun h255 => if_pos h255, fun h0 => ?_, fun h0 h255 => ?_⟩
  · rw [h0]
    rfl
  · rw [Dec.lenArm, if_neg h255, if_neg h0]
    rfl

/-- Settles O17: in ReceivingData a value reaches the payload arm, and the invariant of the next record gives the bounds. -/
theorem payloadByte : Obligations.PayloadByte := by
  intro mode d r hp hr he
  have hstep : decStep mode d r = d.clearEscape.dataArm (unescapeValue d.esc r) :=
    (decStep_value hr (Dec.hunting_eq_false (.inl (by simp [hp]))) he).trans (Dec.phaseArm_receivingData hp)
  have hphase : d.clearEscape.phase = .receivingData := hp
  refine ⟨by rw [hstep, Dec.dataArm, hphase]; rfl, fun hd => (hd.decStep mode r).payload_bounds ?_⟩
  rw [hstep, Dec.dataArm, hphase]
  by_cases hlast : d.count + 1 = d.len
  · exact .inr (if_pos hlast)
  · exact .inl (if_neg hlast)

/-- Settles O18: in ReceivedAll a value reaches the checksum arm, which leaves the record as a drop does either way. -/
theorem checksumByte : Obligations.ChecksumByte := by
  intro mode d r hp hr he v hv
  have hstep : decStep mode d r = d.clearEscape.chkArm v :=
    (decStep_unescaped hr (Dec.hunting_eq_false (.inl (by simp [hp]))) he hv).trans (Dec.phaseArm_receivedAll hp)
  rw [hstep]
  refine ⟨Dec.chkArm_dec, fun hmatch => ?_, fun hmismatch => ?_⟩
  · rw [Dec.chkArm_match (d := d.clearEscape) hmatch]
    exact ⟨rfl, rfl⟩
  · rw [Dec.chkArm_mismatch (d := d.clearEscape) hmismatch]
    exact ⟨rfl, rfl⟩

/-- Settles O27: both wire forms carry the value, and what the decoder does depends on the value only. -/
theorem nonCanonicalEscapesAreAccepted : Obligations.NonCanonicalEscapesAreAccepted := by
  intro mode d v hh he hsync hescape hback
  have hhunt : d.hunting mode = false := Dec.hunting_eq_false hh
  have hescaped : wireOf [0xD0, v - 1] v := .inr ⟨v - 1, rfl, by bv_omega, (BitVec.sub_add_cancel v 1).symm⟩
  have hplain : wireOf [v] v := .inl ⟨rfl, hsync, hescape⟩
  rw [feed_wireOf hescaped hhunt he, feed_wireOf hplain hhunt he]
  exact ⟨rfl, rfl⟩

end Sys2Proof.Machine

/-! PROOFS. The commands of the decoder: DEC_FEED and the wire classes, DEC_SET_NODE, DEC_POLL, and a stream that is polled
chunk by chunk (30_encoding.md R78, 41_packet_decoder.md R132, R133, R135, R136). -/

namespace Sys2Proof.Machine

/-! ## DEC_FEED and the wire classes (R78, R132) -/

/-- Settles O11: each of the five instructions feeds its byte. -/
theorem feedRunsOneDecStep : Obligations.FeedRunsOneDecStep := by
  refine ⟨fun s b q => ⟨rfl, fun hs => busyBlockRefuses.1 _ _ _ [] _ _ hs rfl⟩, fun s b i hi => ?_⟩
  rcases hi with rfl | ⟨rfl, rfl⟩ | ⟨rfl, rfl⟩ | rfl | rfl <;> rfl

/-! ## DEC_SET_NODE (R135) -/

theorem localNodeOk_iff {node : Byte} : localNodeOk node = true ↔ node ≤ 31 := decide_eq_true_iff

/-- Settles O28: the range check is the only one. -/
theorem setNodeWritesLocalNode : Obligations.SetNodeWritesLocalNode := by
  intro s node
  refine ⟨rfl, fun q hs => busyBlockRefuses.1 _ _ _ [] _ _ hs rfl, fun hle => ?_, fun hgt => ?_⟩
  · exact checked_clear (by simp [localNodeOk_iff.mpr hle])
  · have hbad : ¬localNodeOk node = true := mt localNodeOk_iff.mp (BitVec.not_le.mpr hgt)
    exact if_pos (by simpa using hbad)

/-! ## DEC_POLL (R133) -/

/-- A poll feeds a front of the channel and leaves the rest there; nothing else changes but the result. -/
theorem State.poll_eq (mode : HuntMode) (s : State) : ∃ (used rest : List Byte) (out : Option Packet),
    s.chan.rx = used ++ rest ∧
    s.poll mode = { s with
      dec := (feedBytes mode s.dec used).dec
      chan := { s.chan with rx := rest }
      results := s.results ++ [.packet out]
      events := s.events ++ (feedBytes mode s.dec used).events } ∧
    (out = none → rest = [] ∧ ∀ o ∈ (feedBytes mode s.dec used).outs, o = none) ∧
    (∀ p, out = some p → used ≠ [] ∧
      (feedBytes mode s.dec used).outs = List.replicate (used.length - 1) none ++ [some p]) := by
  obtain ⟨used, hsplit, hdec, hevents, hnone, hsome⟩ := drain_spec mode s.dec s.chan.rx
  refine ⟨used, _, _, hsplit, ?_, hnone, hsome⟩
  rw [← hdec, ← hevents]
  rfl

/-- Settles O20: `State.poll_eq` for the hunt mode of this decoder, and DEC_POLL's own code. -/
theorem pollConsumesUpToFirstPacket : Obligations.PollConsumesUpToFirstPacket := by
  refine ⟨rfl, fun s q hs => busyBlockRefuses.1 _ _ _ [] _ _ hs rfl, fun s => ?_⟩
  obtain ⟨used, rest, out, hsplit, hpoll, hnone, hsome⟩ := s.poll_eq Config.huntMode
  exact ⟨used, rest, out, hsplit, congrArg _ hpoll, hnone, fun p hp => (hsome p hp).2⟩

/-! ## Chunks (R136) -/

/-- From `s` to `t` the decoder has taken in these bytes: its record, its packets and its events are those of feeding
them one by one. -/
def TookIn (mode : HuntMode) (s : State) (bytes : List Byte) (t : State) : Prop :=
  packetsIn t.results = packetsIn s.results ++ (feedBytes mode s.dec bytes).outs.filterMap id ∧
  t.dec = (feedBytes mode s.dec bytes).dec ∧ t.events = s.events ++ (feedBytes mode s.dec bytes).events

section
variable {mode : HuntMode} {s t u : State}

theorem TookIn.refl : TookIn mode s [] s := by simp [TookIn]

theorem TookIn.trans {xs ys : List Byte} (h : TookIn mode s xs t) (h' : TookIn mode t ys u) :
    TookIn mode s (xs ++ ys) u := by
  obtain ⟨hresults, hdec, hevents⟩ := h
  obtain ⟨hresults', hdec', hevents'⟩ := h'
  rw [hdec] at hresults' hdec' hevents'
  refine ⟨?_, ?_, ?_⟩ <;> rw [feedBytes_append]
  · rw [hresults', hresults, List.filterMap_append, List.append_assoc]
  · exact hdec'
  · rw [hevents', hevents, List.append_assoc]

/-- A poll takes in a front of what the channel holds, and at least one byte if there is any. -/
theorem State.poll_tookIn (mode : HuntMode) (s : State) : ∃ used,
    s.chan.rx = used ++ (s.poll mode).chan.rx ∧ (s.chan.rx ≠ [] → used ≠ []) ∧ TookIn mode s used (s.poll mode) := by
  obtain ⟨used, rest, out, hsplit, hpoll, hnone, hsome⟩ := s.poll_eq mode
  rw [hpoll]
  refine ⟨used, hsplit, fun hne hused => ?_, ?_, rfl, rfl⟩
  · cases out with
    | none => exact hne (by rw [hsplit, hused, (hnone rfl).1]; rfl)
    | some p => exact (hsome p rfl).1 hused
  · rw [packetsIn_append, packetsIn_packet]
    congr 1
    cases out with
    | none => exact (List.filterMap_eq_nil_iff.mpr (hnone rfl).2).symm
    | some p => simp [(hsome p rfl).2]

/-- As many polls as the channel holds bytes take in all of them. -/
theorem pollWhile_tookIn (n : Nat) (s : State) (hn : s.chan.rx.length ≤ n) :
    TookIn mode s s.chan.rx (pollWhile mode n s) ∧ (pollWhile mode n s).chan.rx = [] := by
  induction n generalizing s with
  | zero =>
    have hempty : s.chan.rx = [] := List.length_eq_zero_iff.mp (Nat.le_zero.mp hn)
    rw [hempty]
    exact ⟨TookIn.refl, hempty⟩
  | succ n ih =>
    by_cases hempty : s.chan.rx = []
    · rw [pollWhile, if_pos hempty, hempty]
      exact ⟨TookIn.refl, rfl⟩
    · obtain ⟨used, hsplit, hused, hpoll⟩ := s.poll_tookIn mode
      have hpos : 0 < used.length := List.length_pos_iff.mpr (hused hempty)
      have hlength : s.chan.rx.length = used.length + (s.poll mode).chan.rx.length := by
        rw [hsplit, List.length_append]
      obtain ⟨hrest, hleft⟩ := ih (s.poll mode) (by omega)
      rw [pollWhile, if_neg hempty, hsplit]
      exact ⟨hpoll.trans hrest, hleft⟩

/-- Chunks that are polled one after another are taken in as the stream they make up. -/
theorem pollChunks_tookIn (chunks : List (List Byte)) (s : State) (hs : s.chan.rx = []) :
    TookIn mode s chunks.flatten (pollChunks mode chunks s) ∧ (pollChunks mode chunks s).chan.rx = [] := by
  induction chunks generalizing s with
  | nil => exact ⟨TookIn.refl, hs⟩
  | cons c cs ih =>
    have hrx : (s.withChan { s.chan with rx := s.chan.rx ++ c }).chan.rx = c := by simp [hs]
    obtain ⟨hchunk, hleft⟩ := pollWhile_tookIn (mode := mode) c.length _ (Nat.le_of_eq (congrArg List.length hrx))
    obtain ⟨hrest, hend⟩ := ih _ hleft
    rw [hrx] at hchunk
    exact ⟨TookIn.trans hchunk hrest, hend⟩

end

/-- Settles O21: polled chunks are taken in as their stream, and nothing is left. -/
theorem chunkingDoesNotMatter : Obligations.ChunkingDoesNotMatter := by
  intro mode s chunks hs
  obtain ⟨⟨hpackets, hdec, hevents⟩, hempty⟩ := pollChunks_tookIn (mode := mode) chunks s hs
  exact ⟨hpackets, hdec, hevents, hempty⟩

end Sys2Proof.Machine

/-! PROOFS. ACK timing is unobservable: what every instruction and every move of the agents leads to, seen without time,
depends on nothing but the state without time (42_psx_bus_controller.md R169). -/

namespace Sys2Proof.Machine

/-! ## The state without time -/

@[simp] theorem untimedEvents_idem (events : List Event) : untimedEvents (untimedEvents events) = untimedEvents events := by
  simp [untimedEvents]

section
variable (s : State)

@[simp] theorem State.untimed_untimed : s.untimed.untimed = s.untimed := by
  simp [State.untimed]

@[simp] theorem State.untimed_dec : s.untimed.dec = s.dec := rfl
@[simp] theorem State.untimed_chan : s.untimed.chan = s.chan := rfl

@[simp] theorem State.withDec_untimed (d : Dec) : (s.withDec d).untimed = s.untimed.withDec d := rfl
@[simp] theorem State.withChan_untimed (c : Channel) : (s.withChan c).untimed = s.untimed.withChan c := rfl
@[simp] theorem State.withBufs_untimed (b : Buffers) : (s.withBufs b).untimed = s.untimed.withBufs b := rfl
@[simp] theorem State.returns_untimed (r : Result) : (s.returns r).untimed = s.untimed.returns r := rfl

@[simp] theorem State.raises_untimed (e : List Event) : (s.raises e).untimed = s.untimed.raises (untimedEvents e) := by
  simp [State.untimed, State.raises]

end

/-- A move that commutes with leaving time out is blind to it. -/
theorem blind_of_commutes {f : State → State} (h : ∀ s, (f s).untimed = f s.untimed) (s : State) :
    (f s).untimed = (f s.untimed).untimed := by
  rw [h, h, State.untimed_untimed]

/-! ## Operations of the bus controller -/

section
variable (s : State)

/-- A transfer without time is its exchange: the wait changes nothing else. -/
theorem State.transfer_untimed (tXchg : Nat) (c : Byte) (tm : Timing) :
    (s.transfer tXchg c tm).2.untimed = (s.untimed.exchange 0 c).2 := by
  rw [State.transfer_eq, State.exchange, cyclesReceived_shift]
  simp only [State.untimed, untimedEvents_append, untimedEvents_wait, List.append_nil]
  rfl

theorem State.endSession_untimed : s.endSession.untimed = s.untimed.endSession := by
  cases h : s.bus.session with
  | none => rw [State.endSession_none s h, State.endSession_none s.untimed h]
  | some n => rw [State.endSession_eq s h, State.endSession_eq s.untimed h]; rfl

theorem State.settle_untimed (v : Verdict) : (s.settle v).untimed = (s.untimed.settle v).untimed := by
  cases v with
  | goOn r => exact blind_of_commutes (f := fun t => t.settle (.goOn r)) (fun _ => rfl) s
  | done ok e =>
    simp only [State.settle, ← State.endSession_untimed, State.returns_untimed, State.raises_untimed]
    congr 2
    exact blind_of_commutes (f := fun t => t.withBus { t.bus with op := none }) (fun _ => rfl) s.endSession

theorem State.moved_untimed (p : BusParams) (r : OpRun) : (s.moved p r).untimed = (s.untimed.moved p r).untimed := by
  simp only [State.moved, State.withBufs_untimed, State.transfer_untimed, State.untimed_untimed]
  rfl

/-- A transfer of an operation: its byte, its response and its verdict do not depend on time. -/
theorem State.turnOf_untimed (p : BusParams) (r : OpRun) : (s.turnOf p r).untimed = (s.untimed.turnOf p r).untimed := by
  rw [State.turnOf_eq, State.turnOf_eq, State.settle_untimed, State.moved_untimed, ← State.settle_untimed]
  rfl

theorem State.turn_untimed (p : BusParams) : (s.turn p).untimed = (s.untimed.turn p).untimed := by
  cases h : s.bus.op with
  | none => rw [State.turn_of_none h, State.turn_of_none (s := s.untimed) h, State.untimed_untimed]
  | some r => rw [State.turn_of_some h, State.turn_of_some (s := s.untimed) h, State.turnOf_untimed]

theorem State.turns_untimed (p : BusParams) (n : Nat) : (s.turns p n).untimed = (s.untimed.turns p n).untimed := by
  induction n generalizing s with
  | zero => exact s.untimed_untimed.symm
  | succ n ih => rw [State.turns_succ, ih, State.turn_untimed, ← ih, ← State.turns_succ]

theorem State.openOp_untimed (kind : OpKind) (slot : Byte) (sector : U16) :
    (s.openOp kind slot sector).untimed = s.untimed.openOp kind slot sector := rfl

theorem State.answered_untimed (p : BusParams) (b : Byte) : (s.answered p b).untimed = (s.untimed.answered p b).untimed := by
  cases h : s.bus.op with
  | none =>
    rw [State.answered_of_none p b s h, State.answered_of_none p b s.untimed h]
    exact blind_of_commutes (f := fun t => t.withDev { t.dev with answers := t.dev.answers ++ [b] }) (fun _ => rfl) s
  | some r =>
    rw [State.answered_of_some p b s h, State.answered_of_some p b s.untimed h, State.turnOf_untimed]
    rfl

/-! ## The decoder's commands -/

theorem State.feed_untimed (mode : HuntMode) (b : Byte) : (s.feed mode b).untimed = (s.untimed.feed mode b).untimed := by
  simp [State.feed]

theorem State.poll_untimed (mode : HuntMode) : (s.poll mode).untimed = (s.untimed.poll mode).untimed := by
  simp [State.poll]

end

/-! ## Outcomes -/

/-- The outcome, seen without time, is the same from the state without time. -/
def TimeBlind (f : State → Host.Outcome State Fault Refusal) : Prop :=
  ∀ s, seenThrough State.untimed (f s) = seenThrough State.untimed (f s.untimed)

theorem TimeBlind.unobservable {f : State → Host.Outcome State Fault Refusal} (hf : TimeBlind f) (s s' : State)
    (h : s.untimed = s'.untimed) : seenThrough State.untimed (f s) = seenThrough State.untimed (f s') := by
  rw [hf s, h, ← hf s']

theorem timeBlind_next {f : State → State} (hf : ∀ s, (f s).untimed = (f s.untimed).untimed) :
    TimeBlind fun s => .next (f s) :=
  fun s => congrArg Host.Outcome.next (hf s)

theorem seenThrough_checked (f : State → State) (cs : List (Bool × Refusal)) (s : State) :
    seenThrough f (checked cs s) = checked cs (f s) := by
  induction cs with
  | nil => rfl
  | cons c cs ih =>
    rw [checked, checked]
    split
    · rfl
    · exact ih

/-- A command whose checks do not read time and whose effect is blind to it. -/
theorem timeBlind_checked {cs : State → List (Bool × Refusal)} {f : State → State} (hc : ∀ s, cs s.untimed = cs s)
    (hf : ∀ s, (f s).untimed = (f s.untimed).untimed) : TimeBlind fun s => checked (cs s) (f s) := by
  intro s
  rw [seenThrough_checked, seenThrough_checked, hc s, hf s]

/-! ## Instructions -/

theorem busXfer_timeBlind (tXchg : Nat) (c : Byte) (tm : Timing) : TimeBlind (busXfer tXchg c tm) := by
  refine timeBlind_checked (fun _ => rfl) fun s => ?_
  simp only [State.transfer_response, State.returns_untimed, State.transfer_untimed, State.untimed_untimed]
  rfl

theorem sendCode_timeBlind (p : BusParams) (c : Byte) : TimeBlind (sendCode p c) := by
  intro s
  have hop : s.untimed.bus.op = s.bus.op := rfl
  rw [sendCode, sendCode, hop]
  cases s.bus.op with
  | none => exact busXfer_timeBlind _ _ _ s
  | some r =>
    exact timeBlind_checked (cs := fun t => [(r.sends t.bufs.inBuf != c, .busy)]) (fun _ => rfl)
      (State.turn_untimed · p) s

theorem operate_timeBlind (p : BusParams) (kind : OpKind) (slot : Byte) (sector : U16) :
    TimeBlind (operate p kind slot sector) := by
  refine timeBlind_checked (fun _ => rfl) fun s => ?_
  rw [State.turns_untimed, State.openOp_untimed]

theorem startOp_timeBlind (kind : OpKind) (slot : Byte) (sector : U16) : TimeBlind (startOp kind slot sector) :=
  timeBlind_checked (fun _ => rfl) (blind_of_commutes (State.openOp_untimed · kind slot sector))

theorem exec_timeBlind_of_dec {i : Instr} (hi : i.port = .dec) : TimeBlind (exec i) := by
  cases i <;> cases hi
  case decFeed b => exact timeBlind_next fun s => s.feed_untimed _ b
  case decPoll => exact timeBlind_next fun s => s.poll_untimed _
  case decSetNode node => exact timeBlind_checked (fun _ => rfl) (blind_of_commutes fun _ => rfl)

theorem exec_timeBlind_of_bus {i : Instr} (hi : i.port = .bus) : TimeBlind (exec i) := by
  cases i <;> cases hi
  case busBegin slot => exact timeBlind_checked (fun _ => rfl) (blind_of_commutes fun _ => rfl)
  case busXfer c timeout predelay => exact busXfer_timeBlind _ c ⟨timeout, predelay⟩
  case busEnd =>
    refine timeBlind_checked (fun _ => rfl) (blind_of_commutes fun s => ?_)
    rw [State.returns_untimed, State.endSession_untimed]
  case mcRead slot sector => exact operate_timeBlind _ _ slot sector
  case mcProbe slot sector => exact operate_timeBlind _ _ slot sector
  case mcWrite slot sector => exact operate_timeBlind _ _ slot sector
  case padPoll slot => exact operate_timeBlind _ _ slot 0

/-- Every instruction is blind to time: the bus controller's by its operations, the others since they read no time. -/
theorem exec_timeBlind (i : Instr) : TimeBlind (exec i) := by
  cases hi : i.port with
  | enc => cases i <;> cases hi; exact timeBlind_checked (fun _ => rfl) (blind_of_commutes fun _ => rfl)
  | dec => exact exec_timeBlind_of_dec hi
  | bus => exact exec_timeBlind_of_bus hi
  | wire => cases i <;> cases hi <;> exact timeBlind_next fun s => s.feed_untimed _ _
  | lineOut => rw [funext (exec_of_lineOut hi)]; exact sendCode_timeBlind _ i.opcode
  | mcIn => rw [funext (exec_of_response (.inl hi))]; exact timeBlind_next fun s => s.answered_untimed _ i.opcode
  | padIn => rw [funext (exec_of_response (.inr hi))]; exact timeBlind_next fun s => s.answered_untimed _ i.opcode

/-! ## Steps -/

theorem startOnly_of_operation {i : Instr} {kind : OpKind} {slot : Byte} {sector : U16}
    (h : operationOf i = some (kind, slot, sector)) : startOnly i = startOp kind slot sector := by
  cases i <;> cases h <;> rfl

theorem startOnly_of_no_operation {i : Instr} (h : operationOf i = none) : startOnly i = exec i := by
  cases i <;> cases h <;> rfl

theorem startOnly_timeBlind (i : Instr) : TimeBlind (startOnly i) := by
  cases h : operationOf i with
  | none => rw [startOnly_of_no_operation h]; exact exec_timeBlind i
  | some x => rw [startOnly_of_operation h]; exact startOp_timeBlind _ _ _

theorem present_timeBlind (mode : Mode) (i : Instr) : TimeBlind (present mode i) := by
  cases mode with
  | whole => exact exec_timeBlind i
  | turnwise => exact startOnly_timeBlind i
  | overlapping => exact fun _ => rfl

/-- What bytes are read as does not depend on time, and neither does what is left of them. -/
theorem request_timeBlind (mode : Mode) (port : Port) (bytes : List Byte) (q : List Input) :
    TimeBlind (request mode port bytes q) := by
  intro s
  have hfetch : s.untimed.fetch port bytes = s.fetch port bytes := rfl
  rw [request, request, hfetch]
  cases s.fetch port bytes with
  | ok i rest => exact present_timeBlind mode i (s.withInputs (leftover mode port rest q))
  | bad e => rfl

theorem accept_timeBlind (input : Input) (q : List Input) : TimeBlind (accept input q) := by
  cases input with
  | request mode port bytes => exact request_timeBlind mode port bytes q
  | busTurn => exact timeBlind_next fun s => (s.withInputs q).turn_untimed _
  | answer b => exact timeBlind_next fun s => (s.withInputs q).answered_untimed _ b
  | ackEdge e => exact timeBlind_next fun s => (s.withInputs q).untimed_untimed.symm
  | receive b => exact timeBlind_next (blind_of_commutes fun _ => rfl)
  | drain n => exact timeBlind_next (blind_of_commutes fun _ => rfl)
  | setOut v => exact timeBlind_checked (fun _ => rfl) (blind_of_commutes fun _ => rfl)
  | setIn v => exact timeBlind_checked (fun _ => rfl) (blind_of_commutes fun _ => rfl)
  | setPad v => exact timeBlind_checked (fun _ => rfl) (blind_of_commutes fun _ => rfl)
  | powerCycle => exact timeBlind_next (blind_of_commutes fun _ => rfl)

theorem step_timeBlind : TimeBlind step := by
  intro s
  have hinputs : s.untimed.inputs = s.inputs := rfl
  rw [step, step, advance, advance, hinputs]
  cases s.inputs with
  | nil => exact timeBlind_next (fun t => t.turn_untimed _) s
  | cons input q => exact accept_timeBlind input q s

/-- Settles O38: two states that are the same without time have the outcome of that one state. -/
theorem ackTimingIsUnobservable : Obligations.AckTimingIsUnobservable :=
  ⟨fun i => (exec_timeBlind i).unobservable, step_timeBlind.unobservable⟩

end Sys2Proof.Machine

/-! PROOFS. The session and transfer commands of the bus controller, and what the ACK edges do to a transfer: its wait, its
flags and its duration (42_psx_bus_controller.md R161 to R171, 60_exceptions.md R240). -/

namespace Sys2Proof.Machine

/-! ## BUS_BEGIN (R162) -/

theorem slotOk_iff {slot : Byte} : slotOk slot = true ↔ slot ≤ 1 := decide_eq_true_iff

section
variable {s : State} (ho : s.bus.op = none)
include ho

theorem exec_busBegin_badSlot {slot : Byte} (h : ¬slotOk slot = true) : exec (.busBegin slot) s = .refused .slot :=
  (if_neg (by simp [ho])).trans (if_pos (by simpa using h))

theorem exec_busBegin_sessionOpen {slot : Byte} (h : slotOk slot = true) (hs : s.bus.session.isSome = true) :
    exec (.busBegin slot) s = .refused .sessionOpen :=
  (if_neg (by simp [ho])).trans ((if_neg (by simpa using h)).trans (if_pos hs))

theorem exec_busBegin_admitted {slot : Byte} (h : slotOk slot = true) (hs : s.bus.session = none) :
    exec (.busBegin slot) s = .next ((s.beginSession (slotIndex slot)).returns .unit) :=
  checked_clear (by simp [ho, h, hs])

end

/-- Settles O30: the three checks stand in their order, and a legal operand names the slot of its value. -/
theorem busBeginOpensSession : Obligations.BusBeginOpensSession := by
  intro s slot ho
  refine ⟨rfl, fun n hn hs => ?_, fun hslot => ?_, fun hslot hs => ?_⟩
  · obtain ⟨rfl, hok⟩ := slotIndex_of_toNat hn
    rw [exec_busBegin_admitted ho hok hs]
    rfl
  · exact exec_busBegin_badSlot ho (mt slotOk_iff.mp (BitVec.not_le.mpr hslot))
  · exact exec_busBegin_sessionOpen ho (slotOk_iff.mpr hslot) hs

/-! ## Commands that ask for a session (R163, R168) -/

/-- The checks of BUS_XFER and BUS_END. -/
def sessionChecks (s : State) : List (Bool × Refusal) :=
  [(s.bus.op.isSome, .busy), (s.bus.session.isNone, .noSession)]

theorem checked_inSession {s : State} (ho : s.bus.op = none) (hs : s.bus.session.isSome = true) (t : State) :
    checked (sessionChecks s) t = .next t :=
  checked_clear (by simp [sessionChecks, ho, Option.isNone_eq_false_iff.mpr hs])

theorem checked_noSession {s : State} (ho : s.bus.op = none) (hs : s.bus.session = none) (t : State) :
    checked (sessionChecks s) t = .refused .noSession := by
  rw [sessionChecks, ho, hs]
  rfl

theorem exec_busEnd (s : State) : exec .busEnd s = checked (sessionChecks s) (s.endSession.returns .unit) := rfl

theorem exec_busXfer (s : State) (cmd : Byte) (timeout predelay : U32) :
    exec (.busXfer cmd timeout predelay) s = checked (sessionChecks s)
      ((s.transfer Config.tXchgUs cmd ⟨timeout, predelay⟩).2.returns (.byte (s.dev.answerAt 0))) := by
  rw [← State.transfer_response s Config.tXchgUs cmd ⟨timeout, predelay⟩]
  rfl

/-! ## BUS_END (R168) -/

/-- Settles O31: a session's slot is the one whose line rises, and nothing clears B.compat. -/
theorem busEndClosesSession : Obligations.BusEndClosesSession := by
  intro s ho
  refine ⟨rfl, fun n hs => ?_, fun hs => ?_⟩
  · rw [exec_busEnd, checked_inSession ho (Option.isSome_of_eq_some hs), State.endSession_eq s hs]
    rfl
  · rw [exec_busEnd, checked_noSession ho hs]

/-! ## The ACK wait (R165) -/

/-- A wait whose next read finds the flag set is over. -/
theorem ackWait_of_latched {w : AckView} (h : w.latch.ack = true) (T : Nat) : ackWait T w = (true, w.latch) := by
  cases T with
  | zero => rw [ackWait, h]
  | succ T => rw [ackWait_succ, if_pos h]

/-- A wait whose next read finds the flag clear goes on for what is left of it. -/
theorem ackWait_of_not_latched {w : AckView} (h : w.latch.ack = false) (T : Nat) :
    ackWait (T + 1) w = ackWait T w.latch.tick := by
  rw [ackWait_succ, if_neg (Bool.eq_false_iff.mp h)]

/-- With the flag clear the next read finds what the schedule has in front. -/
theorem AckView.latch_of_clear {w : AckView} (hw : w.ack = false) :
    w.latch = ⟨w.edges.headD false, w.edges.tail, w.now⟩ := by
  rw [AckView.latch, hw, Bool.false_or]

theorem ackWait_quiet (T : Nat) {w : AckView} (hw : w.ack = false) (hq : quiet w.edges (T + 1)) :
    ackWait T w = (false, ⟨false, w.edges.drop (T + 1), w.now + T⟩) := by
  induction T generalizing w with
  | zero => rw [ackWait, AckView.latch_of_clear hw, quiet_head hq, List.drop_one, Nat.add_zero]
  | succ T ih =>
    have hlatch : w.latch.ack = false := by rw [AckView.latch_of_clear hw, quiet_head hq]
    rw [ackWait_of_not_latched hlatch, ih (w := w.latch.tick) hlatch (quiet_tail hq)]
    simp [Nat.add_assoc, Nat.add_comm 1 T]

theorem ackWait_firstEdge {T j : Nat} (hj : j ≤ T) {w : AckView} (hw : w.ack = false) (he : firstEdgeAt w.edges j) :
    ackWait T w = (true, ⟨true, w.edges.drop (j + 1), w.now + j⟩) := by
  induction j generalizing T w with
  | zero =>
    have hlatch : w.latch.ack = true := by rw [AckView.latch_of_clear hw, firstEdgeAt_zero he]
    rw [ackWait_of_latched hlatch, AckView.latch_of_clear hw, firstEdgeAt_zero he, List.drop_one, Nat.add_zero]
  | succ j ih =>
    obtain ⟨hhead, htail⟩ := firstEdgeAt_tail he
    obtain ⟨T, rfl⟩ := Nat.exists_eq_add_of_lt hj
    have hlatch : w.latch.ack = false := by rw [AckView.latch_of_clear hw, hhead]
    rw [ackWait_of_not_latched hlatch, ih (by omega) (w := w.latch.tick) hlatch htail]
    simp [Nat.add_assoc, Nat.add_comm 1 j]

/-- Settles O33: without an edge every read fails, and with one the first read behind it ends the wait. -/
theorem ackWaitDuration : Obligations.AckWaitDuration := by
  intro T w
  refine ⟨ackWait_quiet T, fun j hj => ackWait_firstEdge hj, fun hw => ?_⟩
  have hlatch : w.latch = ⟨true, w.edges.tail, w.now⟩ := by rw [AckView.latch, hw, Bool.true_or]
  rw [ackWait_of_latched (by rw [hlatch]), hlatch]

/-! ## A transfer's wait (R163 to R166) -/

section
variable {s : State} {tXchg : Nat} {tm : Timing}

theorem State.waitEnd_quiet (h : quiet s.dev.ackEdges.tail (s.waitBound tm + 1)) :
    s.waitEnd tXchg tm = (false, ⟨false, s.dev.ackEdges.drop (s.waitBound tm + 2),
      s.bus.now + tm.predelay.toNat + tXchg + s.waitBound tm⟩) := by
  rw [State.waitEnd, ackWait_quiet _ rfl h, State.waitStart, List.drop_tail]

theorem State.waitEnd_firstEdge {j : Nat} (hj : j ≤ s.waitBound tm) (h : firstEdgeAt s.dev.ackEdges.tail j) :
    s.waitEnd tXchg tm = (true, ⟨true, s.dev.ackEdges.drop (j + 2),
      s.bus.now + tm.predelay.toNat + tXchg + j⟩) := by
  rw [State.waitEnd, ackWait_firstEdge hj rfl h, State.waitStart, List.drop_tail]

end

theorem waitEvents_acked (compat : Bool) : waitEvents compat true = [] := by
  cases compat <;> rfl

theorem waitEvents_missed (compat : Bool) : waitEvents compat false = if compat then [] else [.ackTimeout] := by
  cases compat <;> rfl

/-! ## BUS_XFER -/

/-- Settles O34: the transfer returns the response to its exchange, and its wait changes flags and clock only. -/
theorem busXferReturnsResponse : Obligations.BusXferReturnsResponse := by
  intro s cmd timeout predelay ho
  rw [exec_busXfer]
  refine ⟨fun hs => ⟨_, checked_inSession ho hs _, ?_⟩, fun hs => checked_noSession ho hs _⟩
  rw [State.transfer_eq]
  exact ⟨rfl, rfl, rfl, rfl, rfl, rfl, ho, rfl, rfl, rfl, rfl⟩

/-- Settles O35: the transfer's wait has the bound T, behind AckClear, and the events and flags follow from its answer. -/
theorem busXferTiming : Obligations.BusXferTiming := by
  intro s t cmd timeout predelay h T hT
  rw [exec_busXfer] at h
  obtain ⟨rfl, -⟩ := checked_next h
  have hbound : s.waitBound ⟨timeout, predelay⟩ = T := hT.symm
  rw [State.transfer_eq]
  refine ⟨fun hq => ?_, fun j hj he => ?_⟩
  · rw [State.waitEnd_quiet (by rwa [hbound]), hbound, waitEvents_missed, compatAfter_missed]
    exact ⟨rfl, rfl, rfl, rfl, rfl⟩
  · rw [State.waitEnd_firstEdge (by rwa [hbound]) he, waitEvents_acked, compatAfter_acked]
    exact ⟨rfl, rfl, rfl, rfl, List.append_nil _⟩

/-! ## Compatibility mode (R167, R171) -/

/-- Compatibility mode outlives every instruction but those that begin a session. -/
theorem Executed.compat {i : Instr} {s t : State} (h : Executed i s t) (hc : s.bus.compat = true)
    (hbegin : ∀ slot, i ≠ .busBegin slot) (hop : operationOf i = none) : t.bus.compat = true := by
  cases h with
  | send => exact hc
  | feed => exact hc
  | poll => exact hc
  | setNode => exact hc
  | begin slot hi => exact absurd hi (hbegin slot)
  | finish slot _ _ hs => rw [State.endSession_eq s hs]; exact hc
  | transfer c tm => rw [State.transfer_eq, hc]; rfl
  | operation kind slot sector hi => cases hop.symm.trans hi
  | turn r => exact State.turnOf_compat _ s r hc
  | answered b =>
    cases ho : s.bus.op with
    | none => rw [State.answered_of_none _ b s ho]; exact hc
    | some r => rw [State.answered_of_some _ b s ho]; exact State.turnOf_compat _ _ r hc

/-- Settles O36: an instruction that is not one of the four operations starts none. -/
theorem compatIsSticky : Obligations.CompatIsSticky := by
  intro i s t h hc hslot hsector
  refine (executed_of_exec h).compat hc (fun slot => (hslot slot).1) ?_
  cases i
  case mcRead slot sector => exact absurd rfl (hsector slot sector).1
  case mcProbe slot sector => exact absurd rfl (hsector slot sector).2.1
  case mcWrite slot sector => exact absurd rfl (hsector slot sector).2.2
  case padPoll slot => exact absurd rfl (hslot slot).2
  all_goals rfl

/-- With no edge to come a transfer waits its whole bound and leaves compatibility mode on. -/
theorem exec_busXfer_noAck {s : State} (cmd : Byte) (timeout predelay : U32) (ho : s.bus.op = none)
    (hs : s.bus.session.isSome = true) (he : s.dev.ackEdges = []) :
    ∃ t, exec (.busXfer cmd timeout predelay) s = .next t ∧ t.dev.ackEdges = [] ∧
      t.bus = { s.bus with
        ack := false
        compat := true
        now := s.bus.now + predelay.toNat + Config.tXchgUs + effectiveTimeout s.bus.compat timeout } := by
  have hquiet : quiet s.dev.ackEdges.tail (s.waitBound ⟨timeout, predelay⟩ + 1) := by
    rw [he]
    exact fun _ _ => rfl
  rw [exec_busXfer]
  refine ⟨_, checked_inSession ho hs _, ?_⟩
  rw [State.transfer_eq, State.waitEnd_quiet hquiet, compatAfter_missed, he]
  exact ⟨rfl, rfl⟩

theorem execAll_cons_of_next {i : Instr} {s t : State} (h : exec i s = .next t) (is : List Instr) :
    execAll (i :: is) s = execAll is t := by
  rw [execAll, h]

/-- In compatibility mode and with no edge to come, each of any transfers waits its own timeout. -/
theorem execAll_busXfer_noAck {s : State} (transfers : List (Byte × U32 × U32)) (ho : s.bus.op = none)
    (hs : s.bus.session.isSome = true) (hc : s.bus.compat = true) (he : s.dev.ackEdges = []) :
    ∃ t, execAll (transfers.map fun m => .busXfer m.1 m.2.1 m.2.2) s = .next t ∧ t.bus.compat = true ∧
      t.bus.now = s.bus.now + (transfers.map fun m => m.2.2.toNat + Config.tXchgUs + m.2.1.toNat).sum := by
  induction transfers generalizing s with
  | nil => exact ⟨s, rfl, hc, rfl⟩
  | cons m transfers ih =>
    obtain ⟨u, hexec, hedges, hbus⟩ := exec_busXfer_noAck m.1 m.2.1 m.2.2 ho hs he
    obtain ⟨t, hrest, hcompat, hnow⟩ := ih (s := u) (by rw [hbus, ho]) (by rw [hbus, hs]) (by rw [hbus]) hedges
    refine ⟨t, (execAll_cons_of_next hexec _).trans hrest, hcompat, ?_⟩
    rw [hnow, hbus, hc]
    simp [effectiveTimeout, Nat.add_assoc]

/-- Settles O37: the first transfer waits 3000 and turns compatibility mode on, which the later ones are in. -/
theorem fallbackWithoutAck : Obligations.FallbackWithoutAck := by
  intro s cmd timeout predelay more ho hs hc he
  obtain ⟨u, hexec, hedges, hbus⟩ := exec_busXfer_noAck cmd timeout predelay ho hs he
  obtain ⟨t, hrest, hcompat, hnow⟩ :=
    execAll_busXfer_noAck (s := u) more (by rw [hbus, ho]) (by rw [hbus, hs]) (by rw [hbus]) hedges
  refine ⟨t, (execAll_cons_of_next hexec _).trans hrest, hcompat, ?_⟩
  rw [hnow, hbus, hc]
  simp [effectiveTimeout, Nat.add_assoc]

/-! ## ACK edges between steps (R161, R240) -/

/-- Settles O39: the latch takes an edge of its own direction only. -/
theorem ackEdgeSetsFlag : Obligations.AckEdgeSetsFlag := by
  intro s e q hs
  have hstep : step s = .next ((s.withInputs q).latchEdge Config.ackEdge e) := by simp only [step, advance, hs, accept]
  rw [hstep, State.latchEdge]
  refine ⟨fun he => ?_, fun he => ?_⟩
  · rw [beq_iff_eq.mpr he, Bool.or_true]
    rfl
  · rw [beq_eq_false_iff_ne.mpr he, Bool.or_false]
    rfl

end Sys2Proof.Machine

/-! PROOFS. The peripheral operations as commands: their refusals, and from an idle bus the course each one takes
against the responses, to its result, its line activity, its event and its buffers (43_peripheral_operations.md R192 to
R209). -/

namespace Sys2Proof.Machine

/-! ## The four commands and their refusals (R192, R199, R200, R204) -/

/-- An instruction that starts an operation is that operation, whole. -/
theorem exec_of_operationOf {i : Instr} {kind : OpKind} {slot : Byte} {sector : U16}
    (h : operationOf i = some (kind, slot, sector)) (s : State) :
    exec i s = operate Config.busParams kind slot sector s := by
  cases i <;> cases h <;> rfl

theorem sectorOk_iff {sector : U16} : sectorOk sector = true ↔ sector ≤ 1023 := decide_eq_true_iff

section
variable {s : State} (ho : s.bus.op = none) (p : BusParams) {kind : OpKind} {slot : Byte} {sector : U16}
include ho

theorem operate_badSlot (hslot : ¬slotOk slot = true) : operate p kind slot sector s = .refused .slot :=
  (if_neg (by simp [ho])).trans (if_pos (by simpa using hslot))

theorem operate_badSector (hslot : slotOk slot = true) (hkind : kind ≠ .padPoll)
    (hsector : ¬sectorOk sector = true) : operate p kind slot sector s = .refused .sector :=
  (if_neg (by simp [ho])).trans ((if_neg (by simp [hslot])).trans (if_pos (by simp [hkind, hsector])))

theorem operate_sessionOpen (hslot : slotOk slot = true) (hsector : sectorOk sector = true)
    (hs : s.bus.session.isSome = true) : operate p kind slot sector s = .refused .sessionOpen :=
  (if_neg (by simp [ho])).trans ((if_neg (by simp [hslot])).trans ((if_neg (by simp [hsector])).trans (if_pos hs)))

end

/-- Settles O40: the four commands are one operation's checks, and the sector 0 that PAD_POLL stands with is legal. -/
theorem operationRefusals : Obligations.OperationRefusals := by
  intro s slot sector i hi ho
  obtain ⟨kind, hop, hkind⟩ :
      ∃ kind, operationOf i = some (kind, slot, sector) ∧ (kind = .padPoll → sector = 0) := by
    rcases hi with rfl | rfl | rfl | ⟨rfl, rfl⟩
    · exact ⟨.mcRead, rfl, nofun⟩
    · exact ⟨.mcProbe, rfl, nofun⟩
    · exact ⟨.mcWrite, rfl, nofun⟩
    · exact ⟨.padPoll, rfl, fun _ => rfl⟩
  rw [exec_of_operationOf hop]
  refine ⟨fun hslot => ?_, fun hslot hsector => ?_, fun hslot hsector hs => ?_⟩
  · exact operate_badSlot ho _ (mt slotOk_iff.mp (BitVec.not_le.mpr hslot))
  · refine operate_badSector ho _ (slotOk_iff.mpr hslot) (fun hpad => ?_)
      (mt sectorOk_iff.mp (BitVec.not_le.mpr hsector))
    rw [hkind hpad] at hsector
    exact absurd hsector (by decide)
  · exact operate_sessionOpen ho _ (slotOk_iff.mpr hslot) (sectorOk_iff.mpr hsector) hs

/-! ## The course of an operation -/

/-- What the course of an operation depends on: its operands, the caller's buffers, and the responses, the first
at 0. -/
structure Course where
  kind : OpKind
  sector : U16
  bufs : Buffers
  answers : Nat → Byte

/-- The course that an operation takes from a state. -/
def State.course (s : State) (kind : OpKind) (sector : U16) : Course := ⟨kind, sector, s.bufs, s.dev.answerAt⟩

namespace Course

/-- The operation behind its first k transfers, where none of them ends it. -/
def run (x : Course) : Nat → OpRun
  | 0 => OpRun.start x.kind x.sector
  | k + 1 => (x.run k).carriedOn ((x.run k).sends x.bufs.inBuf) (x.answers k)

/-- The bytes of the first k transfers. -/
def sent (x : Course) (k : Nat) : List Byte := (List.range k).map fun j => (x.run j).sends x.bufs.inBuf

/-- The caller's buffers behind the first k transfers. -/
def stored (x : Course) : Nat → Buffers
  | 0 => x.bufs
  | k + 1 => (x.run k).stores (x.answers k) (x.stored k)

/-- The operation ends at transfer number T, no earlier, with this result and these events. -/
structure Ends (x : Course) (T : Nat) (ok : Bool) (events : List Event) : Prop where
  pos : 1 ≤ T
  le : T ≤ x.kind.transfers
  goes : ∀ k, k + 1 < T → (x.run k).resultOn (x.answers k) = none
  ends : (x.run (T - 1)).resultOn (x.answers (T - 1)) = some ok
  events : events = if ok then [] else [(x.run (T - 1)).failureOn (x.answers (T - 1))]

section
variable (x : Course) (k : Nat)

@[simp] theorem run_kind : (x.run k).kind = x.kind := by
  induction k with
  | zero => rfl
  | succ k ih => exact ih

@[simp] theorem run_sector : (x.run k).sector = x.sector := by
  induction k with
  | zero => rfl
  | succ k ih => exact ih

@[simp] theorem run_k : (x.run k).k = k + 1 := by
  induction k with
  | zero => rfl
  | succ k ih => rw [run, OpRun.carriedOn, ih]

@[simp] theorem sent_length : (x.sent k).length = k := by rw [sent, List.length_map, List.length_range]

theorem sent_succ : x.sent (k + 1) = x.sent k ++ [(x.run k).sends x.bufs.inBuf] := by
  rw [sent, List.range_succ, List.map_append]
  rfl

@[simp] theorem stored_inBuf : (x.stored k).inBuf = x.bufs.inBuf := by
  induction k with
  | zero => rfl
  | succ k ih => rw [stored, OpRun.stores_inBuf, ih]

end

section
variable {x : Course}

theorem run_in_range {k : Nat} (hk : k < x.kind.transfers) :
    1 ≤ (x.run k).k ∧ (x.run k).k ≤ (x.run k).kind.transfers := by
  rw [run_k, run_kind]
  omega

theorem judges_run_goOn {k : Nat} (hk : k < x.kind.transfers) (c : Byte)
    (h : (x.run k).resultOn (x.answers k) = none) :
    (x.run k).judges c (x.answers k) = .goOn ((x.run k).carriedOn c (x.answers k)) := by
  obtain ⟨hlo, hhi⟩ := run_in_range hk
  rw [OpRun.judges_eq _ _ _ hlo hhi, h]

theorem judges_run_done {k : Nat} (hk : k < x.kind.transfers) (c : Byte) {ok : Bool}
    (h : (x.run k).resultOn (x.answers k) = some ok) :
    (x.run k).judges c (x.answers k) = .done ok (if ok then [] else [(x.run k).failureOn (x.answers k)]) := by
  obtain ⟨hlo, hhi⟩ := run_in_range hk
  rw [OpRun.judges_eq _ _ _ hlo hhi, h]

/-- An operation that k transfers do not end is at the k-th place of its course. -/
theorem play_run {k : Nat} (hk : k ≤ x.kind.transfers)
    (hgo : ∀ j < k, (x.run j).resultOn (x.answers j) = none) (m : Nat) :
    play x.answers (k + m) [] x.bufs (x.run 0) = play x.answers m (x.sent k) (x.stored k) (x.run k) := by
  induction k generalizing m with
  | zero => rw [Nat.zero_add]; rfl
  | succ k ih =>
    have hv := judges_run_goOn hk ((x.run k).sends (x.stored k).inBuf) (hgo k (Nat.lt_succ_self k))
    rw [Nat.succ_add_eq_add_succ, ih (by omega) (fun j hj => hgo j (by omega)),
      play_goOn (by rw [sent_length]; exact hv), stored_inBuf, ← sent_succ, sent_length]
    rfl

/-- The sequencer plays the whole course, and turns behind its end are not needed. -/
theorem Ends.play {T : Nat} {ok : Bool} {e : List Event} (h : x.Ends T ok e) :
    play x.answers x.kind.transfers [] x.bufs (x.run 0) = some ⟨x.sent T, x.stored T, ok, e⟩ := by
  obtain ⟨hpos, hle, hgoes, hends, rfl⟩ := h
  obtain ⟨k, rfl⟩ := Nat.exists_eq_add_of_le' hpos
  obtain ⟨m, hm⟩ := Nat.exists_eq_add_of_le hle
  rw [Nat.add_sub_cancel] at hends ⊢
  have hv := judges_run_done hle ((x.run k).sends (x.stored k).inBuf) hends
  rw [hm, Nat.add_assoc, play_run (by omega) (fun j hj => hgoes j (by omega)), Nat.add_comm 1 m,
    play_done (by rw [sent_length]; exact hv), stored_inBuf, ← sent_succ, sent_length]
  rfl

theorem Ends.untimedEvents {T : Nat} {ok : Bool} {e : List Event} (h : x.Ends T ok e) :
    untimedEvents e = e := by
  rw [h.events]
  exact untimedEvents_failureOn _ _ _

/-- The bytes sent are the front of a list that has each transfer's byte at its place. -/
theorem sent_eq_take {bytes : List Byte} {T : Nat}
    (h : ∀ k < T, bytes[k]? = some ((x.run k).sends x.bufs.inBuf)) : x.sent T = bytes.take T := by
  refine List.ext_getElem? fun k => ?_
  rw [sent, List.getElem?_map, List.getElem?_take]
  by_cases hk : k < T
  · rw [if_pos hk, h k hk, List.getElem?_range hk]
    rfl
  · rw [if_neg hk, List.getElem?_eq_none (by simpa using hk)]
    rfl

end

end Course

/-- From an idle bus, operands in the domain, an instruction that starts an operation returns at the end of its
course. -/
theorem exec_ended {i : Instr} {kind : OpKind} {slot : Byte} {sector : U16} {s : State} {n : Fin 2} {T : Nat}
    {ok : Bool} {e : List Event} (hi : operationOf i = some (kind, slot, sector)) (ho : s.bus.op = none)
    (hs : s.bus.session = none) (hn : slot.toNat = n.val) (hsector : kind = .padPoll ∨ sectorOk sector = true)
    (h : (s.course kind sector).Ends T ok e) :
    ∃ t, exec i s = .next t ∧ Ended s n ((s.course kind sector).sent T) ((s.course kind sector).stored T) ok e t := by
  rw [exec_of_operationOf hi]
  exact operate_played ho hs hn hsector h.play

section
variable {s t : State} {n : Fin 2} {x : Course} {T : Nat} {bufs : Buffers} {ok : Bool} {e : List Event}
  (h : Ended s n (x.sent T) bufs ok e t)
include h

theorem Ended.drawn_course : t.dev.drawn = s.dev.drawn + T := by
  rw [h.drawn, Course.sent_length]

theorem Ended.seen_course {bytes : List Byte} (hb : ∀ k < T, bytes[k]? = some ((x.run k).sends x.bufs.inBuf)) :
    t.dev.seen = s.dev.seen ++ sessionSeen n (bytes.take T) (s.dev.responses T) := by
  rw [h.seen, Course.sent_length, Course.sent_eq_take hb]

theorem Ended.events_course (he : x.Ends T ok e) : untimedEvents t.events = untimedEvents s.events ++ e := by
  rw [h.events, he.untimedEvents]

end

/-! ## The absent-device check (R194) -/

/-- A memory card that answers 0xFF to the command byte ends each of the three operations there. -/
theorem Course.ends_absent {x : Course} (hkind : x.kind = .mcRead ∨ x.kind = .mcProbe ∨ x.kind = .mcWrite)
    (habsent : x.answers 1 = 0xFF) : x.Ends 2 false [.devAbsent] := by
  refine ⟨by decide, ?_, fun k hk => ?_, ?_, ?_⟩
  · rcases hkind with h | h | h <;> rw [h] <;> decide
  · obtain rfl : k = 0 := by omega
    rcases hkind with h | h | h <;> simp [OpRun.resultOn, h]
  · rcases hkind with h | h | h <;> simp [OpRun.resultOn, h, habsent]
  · rcases hkind with h | h | h <;> simp [OpRun.failureOn, h]

/-! ## MC_PROBE (R199) -/

namespace Course

/-- The first ID byte of a probe and of a poll stands in the state from transfer 4 on. -/
theorem run_three_id0 {x : Course} (hk : x.kind = .mcProbe ∨ x.kind = .padPoll) : (x.run 3).id0 = x.answers 2 :=
  if_pos ⟨by rwa [run_kind], run_k x 2⟩

section
variable {x : Course} (hkind : x.kind = .mcProbe)
include hkind

theorem resultOn_probe (k : Nat) (b : Byte) : (x.run k).resultOn b =
    if k + 1 = 2 ∧ b = 0xFF then some false else if k + 1 = 4 then some ((x.run k).id0 = 0x5A) else none := by
  simp only [OpRun.resultOn, run_kind, run_k, hkind]

theorem getElem?_probe_line {k : Nat} (hk : k < 4) :
    ([0x81, 0x52, 0, 0] : List Byte)[k]? = some ((x.run k).sends x.bufs.inBuf) := by
  simp only [OpRun.sends, OpRun.probeSends, run_kind, run_k, hkind]
  interval_cases k <;> rfl

theorem stored_probe (k : Nat) : x.stored k = x.bufs := by
  induction k with
  | zero => rfl
  | succ k ih => simp only [stored, OpRun.stores, run_kind, hkind, ih]

/-- A probe ends at the absent-device check or at the second ID byte, and tells by the first ID byte. -/
theorem ends_probe {T : Nat} (hT : T = if x.answers 1 = 0xFF then 2 else 4) :
    x.Ends T (decide (x.answers 1 ≠ 0xFF ∧ x.answers 2 = 0x5A))
      (if x.answers 1 ≠ 0xFF ∧ x.answers 2 = 0x5A then [] else [.devAbsent]) := by
  have hid := run_three_id0 (.inl hkind)
  by_cases habsent : x.answers 1 = 0xFF
  · simpa only [hT, habsent, ne_eq, not_true_eq_false, false_and, decide_false, if_true, if_false] using
      ends_absent (.inr (.inl hkind)) habsent
  · rw [if_neg habsent] at hT
    subst hT
    refine ⟨by decide, by rw [hkind]; decide, fun k hk => ?_, ?_, ?_⟩
    · rw [resultOn_probe hkind, if_neg, if_neg (by omega)]
      rintro ⟨h2, hb⟩
      obtain rfl : k = 1 := by omega
      exact habsent hb
    · refine (resultOn_probe hkind 3 _).trans ?_
      rw [if_neg (by omega), if_pos rfl, hid]
      simp only [ne_eq, habsent, not_false_eq_true, true_and]
    · simp [OpRun.failureOn, hkind]

end

end Course

/-- Settles O42: the course of a probe, whose transfers store nothing. -/
theorem mcProbeTestsFirstId : Obligations.McProbeTestsFirstId := by
  intro s slot sector n ho hs hn hsector
  have hend := (s.course .mcProbe sector).ends_probe rfl rfl
  obtain ⟨t, ht, he⟩ := exec_ended (i := .mcProbe slot sector) rfl ho hs hn (.inr (sectorOk_iff.mpr hsector)) hend
  refine ⟨rfl, t, ht, ?_⟩
  rintro r T rfl rfl
  exact ⟨he.results, he.seen_course fun k hk => Course.getElem?_probe_line rfl (lt_of_lt_of_le hk hend.le),
    he.drawn_course, he.events_course hend, he.op, he.session, he.sel, he.dec, he.chan,
    he.bufs.trans (Course.stored_probe rfl _), he.inputs⟩

/-! ## PAD_POLL (R204 to R206) -/

namespace Course

section
variable {x : Course} (hkind : x.kind = .padPoll)
include hkind

theorem resultOn_pad (k : Nat) (b : Byte) : (x.run k).resultOn b =
    if k + 1 = 4 ∧ ¬((x.run k).id0 = 0x41 ∧ b = 0x5A) then some false else if k + 1 = 6 then some true else none := by
  simp only [OpRun.resultOn, run_kind, run_k, hkind]

theorem getElem?_pad_line {k : Nat} (hk : k < 6) :
    ([0x01, 0x42, 0, 0, 0, 0] : List Byte)[k]? = some ((x.run k).sends x.bufs.inBuf) := by
  simp only [OpRun.sends, OpRun.padSends, run_kind, run_k, hkind]
  interval_cases k <;> rfl

/-- Pad behind one more transfer (R204, R206). -/
theorem stored_padBuf_succ {k : Nat} (hk : k < 6) (j : Fin 2) : (x.stored (k + 1)).padBuf[j] =
    if k = 4 + j.val then x.answers k
    else if (x.run k).resultOn (x.answers k) = some false then 0 else (x.stored k).padBuf[j] := by
  have h := (x.run k).stores_padBuf_get (x.answers k) (x.stored k) j (by rw [run_k]; omega)
    (by rw [run_k, run_kind, hkind]; exact hk)
  rw [run_kind, run_k] at h
  refine h.trans ?_
  simp only [hkind, true_and, show k + 1 = 5 + j.val ↔ k = 4 + j.val by omega]

theorem stored_outBuf_pad (k : Nat) : (x.stored k).outBuf = x.bufs.outBuf := by
  induction k with
  | zero => rfl
  | succ k ih => rw [stored, OpRun.stores_outBuf _ _ _ (by rw [run_kind, hkind]; nofun), ih]

/-- A poll ends at the second ID byte, or on the signature with the second status byte. -/
theorem ends_pad {connected : Bool} {T : Nat} (hc : connected = decide (x.answers 2 = 0x41 ∧ x.answers 3 = 0x5A))
    (hT : T = if connected then 6 else 4) : x.Ends T connected (if connected then [] else [.padId]) := by
  have hid := run_three_id0 (.inr hkind)
  cases connected
  case false =>
    have hsig := of_decide_eq_false hc.symm
    obtain rfl : T = 4 := hT
    refine ⟨by decide, by rw [hkind]; decide, fun k hk => ?_, ?_, ?_⟩
    · rw [resultOn_pad hkind, if_neg (by omega), if_neg (by omega)]
    · exact (resultOn_pad hkind 3 _).trans (if_pos ⟨rfl, by rwa [hid]⟩)
    · simp [OpRun.failureOn, hkind]
  case true =>
    have hsig := of_decide_eq_true hc.symm
    obtain rfl : T = 6 := hT
    refine ⟨by decide, by rw [hkind]; decide, fun k hk => ?_, ?_, rfl⟩
    · rw [resultOn_pad hkind, if_neg, if_neg (by omega)]
      rintro ⟨h4, hno⟩
      obtain rfl : k = 3 := by omega
      exact hno (by rwa [hid])
    · simp [resultOn_pad hkind]

/-- Pad at the end of a poll: the two status bytes on the signature, zeros otherwise. -/
theorem stored_padBuf {connected : Bool} {T : Nat} {e : List Event} (hT : T = if connected then 6 else 4)
    (hend : x.Ends T connected e) (j : Fin 2) :
    (x.stored T).padBuf[j] = if connected then x.answers (4 + j.val) else 0 := by
  have hlast := hend.ends
  cases connected
  case false =>
    obtain rfl : T = 4 := hT
    refine (stored_padBuf_succ hkind (k := 3) (by decide) j).trans ?_
    rw [if_neg (by omega)]
    exact if_pos hlast
  case true =>
    obtain rfl : T = 6 := hT
    have h4 : (x.run 4).resultOn (x.answers 4) = none := hend.goes 4 (by decide)
    have h5 : (x.run 5).resultOn (x.answers 5) = some true := hlast
    have hstep := stored_padBuf_succ hkind (k := 5) (by decide) j
    rw [h5, stored_padBuf_succ hkind (k := 4) (by decide) j, h4] at hstep
    refine hstep.trans ?_
    match j with
    | 0 => rfl
    | 1 => rfl

end

end Course

/-- Settles O44: the course of a poll, whose last transfers store to Pad. -/
theorem padPollReadsButtons : Obligations.PadPollReadsButtons := by
  intro s slot n ho hs hn
  have hend := (s.course .padPoll 0).ends_pad rfl rfl rfl
  obtain ⟨t, ht, he⟩ := exec_ended (i := .padPoll slot) rfl ho hs hn (.inl rfl) hend
  refine ⟨rfl, t, ht, ?_⟩
  rintro r connected T rfl rfl rfl
  have hpad (j : Fin 2) : t.bufs.padBuf[j] = _ :=
    (congrArg (fun b : Buffers => b.padBuf[j]) he.bufs).trans (Course.stored_padBuf rfl rfl hend j)
  exact ⟨he.results, hpad 0, hpad 1, (congrArg Buffers.outBuf he.bufs).trans (Course.stored_outBuf_pad rfl _),
    (congrArg Buffers.inBuf he.bufs).trans (Course.stored_inBuf _ _),
    he.seen_course fun k hk => Course.getElem?_pad_line rfl (lt_of_lt_of_le hk hend.le), he.drawn_course,
    he.events_course hend, he.op, he.session, he.sel, he.dec, he.chan, he.inputs⟩

/-! ## MC_WRITE (R201 to R203) -/

namespace Course

section
variable {x : Course} (hkind : x.kind = .mcWrite)
include hkind

theorem resultOn_write (k : Nat) (b : Byte) : (x.run k).resultOn b =
    if k + 1 = 2 ∧ b = 0xFF then some false else if k + 1 = 138 then some (b = 0x47) else none := by
  simp only [OpRun.resultOn, run_kind, run_k, hkind]

theorem sends_write (k : Nat) : (x.run k).sends x.bufs.inBuf =
    if k + 1 = 1 then Config.devMc
    else if k + 1 = 2 then Config.cmdWrite
    else if k + 1 = 5 then sectorHi x.sector
    else if k + 1 = 6 then sectorLo x.sector
    else if 7 ≤ k + 1 ∧ k + 1 ≤ 134 then bufGet x.bufs.inBuf (k + 1 - 7)
    else if k + 1 = 135 then (x.run k).chk
    else Config.filler := by
  simp only [OpRun.sends, OpRun.writeSends, run_kind, run_sector, run_k, hkind]

theorem sends_write_data {j : Nat} (hj : j < 128) : (x.run (6 + j)).sends x.bufs.inBuf = x.bufs.inBuf[j] := by
  rw [sends_write hkind, if_neg (by omega), if_neg (by omega), if_neg (by omega), if_neg (by omega), if_pos (by omega),
    show 6 + j + 1 - 7 = j by omega, bufGet_of_lt _ _ hj]

theorem sends_write_checksum : (x.run 134).sends x.bufs.inBuf = (x.run 134).chk := by
  rw [sends_write hkind]
  rfl

theorem chk_write_succ (k : Nat) : (x.run (k + 1)).chk =
    if k + 1 = 5 then (x.run k).sends x.bufs.inBuf
    else if 6 ≤ k + 1 ∧ k + 1 ≤ 134 then (x.run k).chk ^^^ (x.run k).sends x.bufs.inBuf
    else (x.run k).chk := by
  simp only [run, OpRun.carriedOn, run_kind, run_k, hkind]

/-- The running checksum of a write: the sector address and the bytes of In sent so far (R202). -/
theorem chk_write {j : Nat} (hj : j ≤ 128) : (x.run (6 + j)).chk =
    (x.bufs.inBuf.toList.take j).foldl (· ^^^ ·) (sectorHi x.sector ^^^ sectorLo x.sector) := by
  induction j with
  | zero =>
    have h5 : (x.run 5).chk = sectorHi x.sector := by
      rw [chk_write_succ hkind 4, sends_write hkind]
      rfl
    rw [chk_write_succ hkind 5, h5, sends_write hkind]
    rfl
  | succ j ih =>
    have hget : x.bufs.inBuf.toList[j]? = some x.bufs.inBuf[j] := by simp [show j < 128 by omega]
    rw [← Nat.add_assoc, chk_write_succ hkind, if_neg (by omega), if_pos (by omega), ih (by omega),
      sends_write_data hkind (by omega), List.take_add_one, List.foldl_append, hget]
    rfl

theorem chk_write_all : (x.run 134).chk =
    x.bufs.inBuf.toList.foldl (· ^^^ ·) (sectorHi x.sector ^^^ sectorLo x.sector) := by
  rw [chk_write hkind (j := 128) (Nat.le_refl _), List.take_of_length_le (by simp)]

theorem getElem?_write_line {k : Nat} (hk : k < 138) :
    ([0x81, 0x57, 0, 0, sectorHi x.sector, sectorLo x.sector] ++ x.bufs.inBuf.toList ++
      [x.bufs.inBuf.toList.foldl (· ^^^ ·) (sectorHi x.sector ^^^ sectorLo x.sector), 0, 0, 0])[k]? =
        some ((x.run k).sends x.bufs.inBuf) := by
  rw [List.append_assoc]
  rcases lt_or_ge k 6 with hhead | hhead
  · rw [sends_write hkind]
    interval_cases k <;> rfl
  obtain ⟨j, rfl⟩ := Nat.exists_eq_add_of_le hhead
  have hskip : 6 + j - [0x81, 0x57, 0, 0, sectorHi x.sector, sectorLo x.sector].length = j :=
    Nat.add_sub_cancel_left 6 j
  rw [List.getElem?_append_right hhead, hskip]
  rcases lt_or_ge j 128 with hdata | hdata
  · rw [List.getElem?_append_left (by simpa using hdata), sends_write_data hkind hdata]
    simp [hdata]
  obtain ⟨i, rfl⟩ := Nat.exists_eq_add_of_le hdata
  rw [List.getElem?_append_right (by simp), ← chk_write_all hkind, Vector.length_toList,
    Nat.add_sub_cancel_left]
  obtain rfl | htail : i = 0 ∨ 1 ≤ i := by omega
  · rw [← sends_write_checksum hkind]
    rfl
  · have hi : i < 4 := by omega
    rw [sends_write hkind, if_neg (by omega), if_neg (by omega), if_neg (by omega), if_neg (by omega),
      if_neg (by omega), if_neg (by omega)]
    interval_cases i <;> rfl

theorem stored_write (k : Nat) : x.stored k = x.bufs := by
  induction k with
  | zero => rfl
  | succ k ih => simp only [stored, OpRun.stores, run_kind, hkind, ih]

/-- A write ends at the absent-device check or at its status byte, and tells by that (R203). -/
theorem ends_write {T : Nat} (hT : T = if x.answers 1 = 0xFF then 2 else 138) :
    x.Ends T (decide (x.answers 1 ≠ 0xFF ∧ x.answers 137 = 0x47))
      (if x.answers 1 = 0xFF then [.devAbsent] else if x.answers 137 = 0x47 then [] else [.badStatus]) := by
  by_cases habsent : x.answers 1 = 0xFF
  · simpa only [hT, habsent, ne_eq, not_true_eq_false, false_and, decide_false, if_true] using
      ends_absent (.inr (.inr hkind)) habsent
  · rw [if_neg habsent] at hT
    subst hT
    refine ⟨by decide, by rw [hkind]; decide, fun k hk => ?_, ?_, ?_⟩
    · rw [resultOn_write hkind, if_neg, if_neg (by omega)]
      rintro ⟨h2, hb⟩
      obtain rfl : k = 1 := by omega
      exact habsent hb
    · refine (resultOn_write hkind 137 _).trans ?_
      rw [if_neg (by omega), if_pos rfl]
      simp only [ne_eq, habsent, not_false_eq_true, true_and]
    · rw [if_neg habsent]
      by_cases hst : x.answers 137 = 0x47
      · rw [if_pos hst, if_pos (decide_eq_true ⟨habsent, hst⟩)]
      · rw [if_neg hst, if_neg (mt of_decide_eq_true fun h => hst h.2)]
        simp [OpRun.failureOn, hkind]

end

end Course

/-- Settles O43: the course of a write, whose transfers store nothing and whose checksum is folded as it sends In. -/
theorem mcWriteWritesSector : Obligations.McWriteWritesSector := by
  intro s slot sector n ho hs hn hsector
  have hend := (s.course .mcWrite sector).ends_write rfl rfl
  obtain ⟨t, ht, he⟩ := exec_ended (i := .mcWrite slot sector) rfl ho hs hn (.inr (sectorOk_iff.mpr hsector)) hend
  refine ⟨rfl, t, ht, ?_⟩
  rintro r hi lo T rfl rfl rfl rfl
  have hseen := he.seen_course fun k hk => Course.getElem?_write_line rfl (lt_of_lt_of_le hk hend.le)
  exact ⟨he.results, hseen, he.drawn_course, he.events_course hend, he.op, he.session, he.sel, he.dec, he.chan,
    he.bufs.trans (Course.stored_write rfl _), he.inputs⟩

/-! ## MC_READ (R193 to R198) -/

/-- Transfers are counted from 1, the responses to come from 0. -/
theorem Device.response_one_add (d : Device) (m k : Nat) : d.response (m + 1 + k) = d.answerAt (m + k) := by
  rw [Device.response, Nat.add_right_comm, Nat.add_sub_cancel]

namespace Course

section
variable {x : Course} (hkind : x.kind = .mcRead)
include hkind

theorem resultOn_read (k : Nat) (b : Byte) : (x.run k).resultOn b =
    if k + 1 = 2 ∧ b = 0xFF ∨ k + 1 = 7 ∧ b ≠ 0x5C then some false
    else if k + 1 = 140 then some (b = 0x47 ∧ (x.run k).chk = (x.run k).rx) else none := by
  simp only [OpRun.resultOn, run_kind, run_k, hkind]

theorem sends_read (k : Nat) : (x.run k).sends x.bufs.inBuf =
    if k + 1 = 1 then Config.devMc
    else if k + 1 = 2 then Config.cmdRead
    else if k + 1 = 5 then sectorHi x.sector
    else if k + 1 = 6 then sectorLo x.sector
    else Config.filler := by
  simp only [OpRun.sends, OpRun.readSends, run_kind, run_sector, run_k, hkind]

theorem getElem?_read_line {k : Nat} (hk : k < 140) :
    ([0x81, 0x52, 0, 0, sectorHi x.sector, sectorLo x.sector] ++ List.replicate 134 (0 : Byte))[k]? =
      some ((x.run k).sends x.bufs.inBuf) := by
  rw [sends_read hkind]
  rcases lt_or_ge k 6 with hhead | hhead
  · interval_cases k <;> rfl
  · rw [if_neg (by omega), if_neg (by omega), if_neg (by omega), if_neg (by omega), List.getElem?_append_right hhead]
    exact List.getElem?_replicate_of_lt (Nat.sub_lt_left_of_lt_add hhead hk)

theorem chk_read_succ (k : Nat) : (x.run (k + 1)).chk =
    if k + 1 = 9 then x.answers k
    else if 10 ≤ k + 1 ∧ k + 1 ≤ 138 then (x.run k).chk ^^^ x.answers k
    else (x.run k).chk := by
  simp only [run, OpRun.carriedOn, run_kind, run_k, hkind]

/-- The running checksum of a read: the two echo bytes and the data bytes read so far (R196). -/
theorem chk_read {j : Nat} (hj : j ≤ 128) : (x.run (10 + j)).chk =
    (List.range j).foldl (fun c i => c ^^^ x.answers (10 + i)) (x.answers 8 ^^^ x.answers 9) := by
  induction j with
  | zero =>
    have h9 : (x.run 9).chk = x.answers 8 := chk_read_succ hkind 8
    rw [chk_read_succ hkind 9, h9]
    rfl
  | succ j ih =>
    rw [← Nat.add_assoc, chk_read_succ hkind, if_neg (by omega), if_pos (by omega), ih (by omega), List.range_succ,
      List.foldl_append]
    rfl

/-- At its last transfer a read has the whole checksum. -/
theorem chk_read_all : (x.run 139).chk =
    (List.range 128).foldl (fun c i => c ^^^ x.answers (10 + i)) (x.answers 8 ^^^ x.answers 9) :=
  (chk_read_succ hkind 138).trans (chk_read hkind (j := 128) (Nat.le_refl _))

/-- At its last transfer a read has the checksum that the peripheral sent. -/
theorem rx_read_all : (x.run 139).rx = x.answers 138 :=
  if_pos ⟨by rwa [run_kind], run_k x 138⟩

/-- Out behind the first k transfers (R198). -/
theorem stored_outBuf_read (k : Nat) (j : Fin 128) :
    (x.stored k).outBuf[j] = if 10 + j.val < k then x.answers (10 + j.val) else x.bufs.outBuf[j] := by
  induction k with
  | zero => rfl
  | succ k ih =>
    rw [stored, OpRun.stores_outBuf_get, run_kind, run_k, ih]
    by_cases hk : k = 10 + j.val
    · rw [if_pos ⟨hkind, by omega⟩, if_pos (by omega), hk]
    · rw [if_neg (by omega)]
      simp only [show 10 + j.val < k ↔ 10 + j.val < k + 1 by omega]

/-- Out at the end of a read: the data bytes where they were reached, else its earlier contents. -/
theorem stored_outBuf_read_end {T : Nat}
    (hT : T = if x.answers 1 = 0xFF then 2 else if x.answers 6 ≠ 0x5C then 7 else 140)
    (j : Fin 128) : (x.stored T).outBuf[j] = if T = 140 then x.answers (10 + j.val) else x.bufs.outBuf[j] := by
  have hreached : 10 + j.val < T ↔ T = 140 := by
    rw [hT]
    split_ifs <;> omega
  simp only [stored_outBuf_read hkind, hreached]

theorem stored_padBuf_read (k : Nat) : (x.stored k).padBuf = x.bufs.padBuf := by
  induction k with
  | zero => rfl
  | succ k ih => rw [stored, OpRun.stores_padBuf _ _ _ (by rw [run_kind, hkind]; nofun), ih]

/-- A read that passes the check at 2, and the one at 7 where it comes to it, goes on to its last transfer. -/
theorem read_goes_on {k : Nat} (hk : k < 139) (habsent : x.answers 1 ≠ 0xFF)
    (hack : 6 ≤ k → x.answers 6 = 0x5C) : (x.run k).resultOn (x.answers k) = none := by
  rw [resultOn_read hkind, if_neg, if_neg (by omega)]
  rintro (⟨h2, hb⟩ | ⟨h7, hb⟩)
  · obtain rfl : k = 1 := by omega
    exact habsent hb
  · obtain rfl : k = 6 := by omega
    exact hb (hack (Nat.le_refl _))

/-- A read ends at the absent-device check, at the first acknowledge byte, or at its status byte, where it tells by the
status and the checksum (R194, R195, R197). -/
theorem ends_read {T : Nat} {chk : Byte}
    (hchk : chk = (List.range 128).foldl (fun c i => c ^^^ x.answers (10 + i)) (x.answers 8 ^^^ x.answers 9))
    (hT : T = if x.answers 1 = 0xFF then 2 else if x.answers 6 ≠ 0x5C then 7 else 140) :
    x.Ends T (decide (T = 140 ∧ x.answers 139 = 0x47 ∧ chk = x.answers 138))
      (if T = 2 then [.devAbsent] else if T = 7 then [.badAck1]
        else if x.answers 139 ≠ 0x47 then [.badStatus] else if chk ≠ x.answers 138 then [.badChecksum] else []) := by
  by_cases habsent : x.answers 1 = 0xFF
  · rw [if_pos habsent] at hT
    subst hT
    exact ends_absent (.inl hkind) habsent
  rw [if_neg habsent] at hT
  by_cases hack : x.answers 6 = 0x5C
  · rw [if_neg (not_not.mpr hack)] at hT
    subst hT
    refine ⟨by decide, by rw [hkind]; decide, fun k hk => ?_, ?_, ?_⟩
    · exact read_goes_on hkind (by omega) habsent (fun _ => hack)
    · refine (resultOn_read hkind 139 _).trans ?_
      rw [if_neg (by omega), if_pos rfl, chk_read_all hkind, ← hchk, rx_read_all hkind]
      simp only [true_and]
    · by_cases hst : x.answers 139 = 0x47
      · by_cases hsum : chk = x.answers 138 <;> simp [OpRun.failureOn, hkind, hst, hsum]
      · simp only [OpRun.failureOn, run_kind, run_k, hkind, hst, ne_eq, not_false_eq_true, if_true, false_and,
          and_false, decide_false]
        rfl
  · rw [if_pos hack] at hT
    subst hT
    refine ⟨by decide, by rw [hkind]; decide, fun k hk => ?_, ?_, ?_⟩
    · exact read_goes_on hkind (by omega) habsent (by omega)
    · exact (resultOn_read hkind 6 _).trans (if_pos (.inr ⟨rfl, hack⟩))
    · simp [OpRun.failureOn, hkind]

end

end Course

/-- Settles O41: the course of a read, which stores to Out where it reaches the data bytes. -/
theorem mcReadReadsSector : Obligations.McReadReadsSector := by
  intro s slot sector n ho hs hn hsector
  have hend := (s.course .mcRead sector).ends_read rfl rfl rfl
  obtain ⟨t, ht, he⟩ := exec_ended (i := .mcRead slot sector) rfl ho hs hn (.inr (sectorOk_iff.mpr hsector)) hend
  refine ⟨rfl, t, ht, ?_⟩
  rintro r chk T rfl hchk hT
  simp only [Device.response_one_add _ 10] at hchk ⊢
  subst hchk hT
  have hseen := he.seen_course fun k hk => Course.getElem?_read_line rfl (lt_of_lt_of_le hk hend.le)
  have hout (k : Fin 128) := (congrArg (fun b : Buffers => b.outBuf[k]) he.bufs).trans
    (Course.stored_outBuf_read_end rfl rfl k)
  exact ⟨he.results, hout, (congrArg Buffers.inBuf he.bufs).trans (Course.stored_inBuf _ _),
    (congrArg Buffers.padBuf he.bufs).trans (Course.stored_padBuf_read rfl _), hseen, he.drawn_course,
    he.events_course hend, he.op, he.session, he.sel, he.dec, he.chan, he.inputs⟩

end Sys2Proof.Machine

/-! PROOFS. A power cycle: which parts of the state it puts back, and which it keeps (60_exceptions.md R248,
70_reset_and_hazards.md R260). -/

namespace Sys2Proof.Machine

/-- Power-on gives the two blocks their fields as in the state after power-on and touches nothing else (R260). -/
theorem State.powerOn_eq (s : State) : s.powerOn = { s with dec := State.reset.dec, bus := State.reset.bus } := rfl

theorem step_powerCycle {s : State} {q : List Input} (hs : s.inputs = .powerCycle :: q) :
    step s = .next (s.withInputs q).powerOn := by
  simp only [step, advance, hs, accept]

/-- Settles O57: the step is power-on with the input taken, in whatever state an operation in progress has left. -/
theorem powerCycleResets : Obligations.PowerCycleResets := by
  intro s q hs
  rw [step_powerCycle hs, State.powerOn_eq]
  rfl

end Sys2Proof.Machine

/-! PROOFS. Power-on, the caller's buffers against an operation in progress, and the time of an operation whose peripheral
never gives an ACK (70_reset_and_hazards.md R260, R267, R274). -/

namespace Sys2Proof.Machine

/-! ## Power-on (R260) -/

/-- Settles O56: each field of the state after power-on is written down in the model as this value. -/
theorem resetValues : Obligations.ResetValues :=
  ⟨rfl, rfl, rfl, rfl, rfl, rfl, rfl, rfl, rfl, rfl, rfl, rfl⟩

/-! ## A change of the caller's buffers (R267) -/

section
variable {s : State} {q : List Input}

theorem step_input {input : Input} (hs : s.inputs = input :: q) : step s = accept input q s := by
  rw [step, advance, hs]

theorem changeBuffers_busy (ho : s.bus.op.isSome = true) (b : Buffers) :
    changeBuffers b s = .refused .bufferInUse :=
  if_pos ho

theorem changeBuffers_idle (ho : s.bus.op = none) (b : Buffers) : changeBuffers b s = .next (s.withBufs b) :=
  if_neg (by rw [ho]; exact Bool.false_ne_true)

end

/-- Settles O47: each of the three inputs is a change of the buffers behind the one check. -/
theorem buffersAreStableDuringOperation : Obligations.BuffersAreStableDuringOperation := by
  intro s q o w v
  refine ⟨fun ho hs => ?_, fun ho => ⟨fun hs => ?_, fun hs => ?_, fun hs => ?_⟩⟩
  · rcases hs with hs | hs | hs <;> exact (step_input hs).trans (changeBuffers_busy (s := s.withInputs q) ho _)
  all_goals exact (step_input hs).trans (changeBuffers_idle (s := s.withInputs q) ho _)

/-! ## An operation without an ACK (R274) -/

@[simp] theorem State.settle_ackEdges (s : State) (v : Verdict) : (s.settle v).dev.ackEdges = s.dev.ackEdges := by
  cases v with
  | goOn r => rfl
  | done ok e => cases h : s.bus.session <;> simp [State.settle_done, State.settle_done_none, h]

/-- With no edge to come a transfer waits its whole bound and leaves compatibility mode on. -/
theorem State.transfer_noAck {s : State} (he : s.dev.ackEdges = []) (tXchg : Nat) (c : Byte) (tm : Timing) :
    (s.transfer tXchg c tm).2.dev.ackEdges = [] ∧ (s.transfer tXchg c tm).2.bus.compat = true ∧
      (s.transfer tXchg c tm).2.bus.now = s.bus.now + tm.predelay.toNat + tXchg + s.waitBound tm := by
  have hquiet : quiet s.dev.ackEdges.tail (s.waitBound tm + 1) := by
    rw [he]
    exact fun _ _ => rfl
  rw [State.transfer_eq, State.waitEnd_quiet hquiet, compatAfter_missed, he]
  exact ⟨rfl, rfl, rfl⟩

/-- A turn takes the time of its transfer. -/
theorem State.turnOf_noAck {s : State} (he : s.dev.ackEdges = []) (p : BusParams) (r : OpRun) :
    (s.turnOf p r).dev.ackEdges = [] ∧ (s.turnOf p r).bus.compat = true ∧
      (s.turnOf p r).bus.now = s.bus.now + (r.kind.timing p r.k).predelay.toNat + p.tXchg +
        s.waitBound (r.kind.timing p r.k) := by
  rw [State.turnOf_eq, State.settle_ackEdges, State.settle_compat, State.settle_now]
  exact State.transfer_noAck he ..

/-- An operation that a turn leaves in progress is at its next transfer. -/
theorem State.turnOf_position (p : BusParams) (s : State) (r : OpRun) {r' : OpRun}
    (h : (s.turnOf p r).bus.op = some r') : r'.kind = r.kind ∧ r'.k = r.k + 1 := by
  rcases State.turnOf_op p s r with hnone | ⟨next, hsome, hkind, -, hk⟩
  · cases hnone.symm.trans h
  · cases hsome.symm.trans h
    exact ⟨hkind, hk⟩

/-- The pre-delays and the exchanges of an operation's first n transfers. -/
def OpKind.moveTime (kind : OpKind) (p : BusParams) (n : Nat) : Nat :=
  ((List.range n).map fun k => (kind.timing p (k + 1)).predelay.toNat + p.tXchg).sum

/-- The caller's timeouts of the n transfers behind an operation's first. -/
def OpKind.laterWaits (kind : OpKind) (p : BusParams) (n : Nat) : Nat :=
  ((List.range n).map fun k => (kind.timing p (k + 2)).timeout.toNat).sum

theorem OpKind.moveTime_one (kind : OpKind) (p : BusParams) :
    kind.moveTime p 1 = (kind.timing p 1).predelay.toNat + p.tXchg :=
  List.sum_singleton

theorem OpKind.laterWaits_zero (kind : OpKind) (p : BusParams) : kind.laterWaits p 0 = 0 := rfl

theorem OpKind.moveTime_succ (kind : OpKind) (p : BusParams) (n : Nat) :
    kind.moveTime p (n + 1) = kind.moveTime p n + ((kind.timing p (n + 1)).predelay.toNat + p.tXchg) :=
  List.sum_range_succ _ _

theorem OpKind.laterWaits_succ (kind : OpKind) (p : BusParams) (n : Nat) :
    kind.laterWaits p (n + 1) = kind.laterWaits p n + (kind.timing p (n + 2)).timeout.toNat :=
  List.sum_range_succ _ _

/-- Behind the first transfer of an operation and n more, with no ACK to any of them and none to come. -/
structure Unacked (p : BusParams) (kind : OpKind) (s0 : State) (n : Nat) (s : State) : Prop where
  edges : s.dev.ackEdges = []
  compat : s.bus.compat = true
  drawn : s.dev.drawn = s0.dev.drawn + (n + 1)
  position : ∀ r, s.bus.op = some r → r.kind = kind ∧ r.k = n + 2
  now : s.bus.now = s0.bus.now + Config.tAckUs + kind.moveTime p (n + 1) + kind.laterWaits p n

section
variable {p : BusParams} {kind : OpKind} {s0 s : State} {n : Nat}

variable (p kind) in
/-- The first transfer waits T_ACK_US, since BUS_BEGIN turns compatibility mode off (R162, R164). -/
theorem Unacked.first (slot : Byte) (sector : U16) (he : s0.dev.ackEdges = []) :
    Unacked p kind s0 0 ((s0.openOp kind slot sector).turn p) := by
  have he' : (s0.openOp kind slot sector).dev.ackEdges = [] := he
  rw [State.turn_of_some (r := OpRun.start kind sector) rfl]
  obtain ⟨hedges, hcompat, hnow⟩ := State.turnOf_noAck he' p (OpRun.start kind sector)
  refine ⟨hedges, hcompat, State.turnOf_drawn .., fun r hr => State.turnOf_position _ _ _ hr, ?_⟩
  have hbound (tm : Timing) : (s0.openOp kind slot sector).waitBound tm = Config.tAckUs := rfl
  have hstart : (s0.openOp kind slot sector).bus.now = s0.bus.now := rfl
  rw [hnow, hbound, hstart, Nat.zero_add, OpKind.moveTime_one, OpKind.laterWaits_zero]
  simp only [OpRun.start]
  omega

/-- A later transfer waits the caller's timeout (R164, R170). -/
theorem Unacked.turnOf (h : Unacked p kind s0 n s) {r : OpRun} (hr : s.bus.op = some r) :
    Unacked p kind s0 (n + 1) (s.turnOf p r) := by
  obtain ⟨rfl, hk⟩ := h.position r hr
  obtain ⟨hedges, hcompat, hnow⟩ := State.turnOf_noAck h.edges p r
  refine ⟨hedges, hcompat, by rw [State.turnOf_drawn, h.drawn, Nat.add_assoc], fun r' hr' => ?_, ?_⟩
  · obtain ⟨hkind', hk'⟩ := State.turnOf_position p s r hr'
    exact ⟨hkind', by omega⟩
  · have hbound (tm : Timing) : s.waitBound tm = tm.timeout.toNat := by
      rw [State.waitBound, h.compat, effectiveTimeout, if_pos rfl]
    have hmove : r.kind.moveTime p (n + 1 + 1) = r.kind.moveTime p (n + 1) +
        ((r.kind.timing p (n + 2)).predelay.toNat + p.tXchg) := r.kind.moveTime_succ p (n + 1)
    have hwaits := r.kind.laterWaits_succ p n
    rw [hk, hbound, h.now] at hnow
    omega

/-- Of any turns the operation takes those up to its end. -/
theorem Unacked.turns (h : Unacked p kind s0 n s) (m : Nat) :
    ∃ j ≤ m, Unacked p kind s0 (n + j) (s.turns p m) := by
  induction m generalizing n s with
  | zero => exact ⟨0, Nat.le_refl 0, h⟩
  | succ m ih =>
    cases hs : s.bus.op with
    | none =>
      rw [State.turns_of_none hs]
      exact ⟨0, Nat.zero_le _, h⟩
    | some r =>
      obtain ⟨j, hj, hend⟩ := ih (h.turnOf hs)
      rw [State.turns_succ, State.turn_of_some hs]
      exact ⟨j + 1, Nat.succ_le_succ hj, by rwa [Nat.add_comm j, ← Nat.add_assoc]⟩

end

/-- Settles O45: the first transfer waits 3000 and turns compatibility mode on, which every later one finds on. -/
theorem operationTimeWithoutAck : Obligations.OperationTimeWithoutAck := by
  intro p kind slot sector s t he h
  obtain ⟨rfl, -⟩ := operate_next h
  obtain ⟨m, hm⟩ := Nat.exists_eq_add_of_le' kind.one_le_transfers
  obtain ⟨j, hj, hend⟩ := (Unacked.first p kind slot sector he).turns m
  rw [hm, State.turns_succ]
  rw [Nat.zero_add] at hend
  have hlast := kind.transfers_le
  exact ⟨j + 1, hend.drawn, by omega, by omega, hend.compat, hend.now⟩

end Sys2Proof.Machine
